-- ==== Sys2Proof/Config.lean ====
section
/-! DEFINITION. The named constants of spec/00_scope.md R5. The spec fixes every one; none is left open, and the block draws
no value from outside its registers and the command word (R12), so there is no free value here. The widths of R5 are the
widths of the types of Sys2Proof/Word.lean. -/

namespace Sys2Proof.Config

/-- `FRACTION_MAX`: the largest coefficient, the divisor of the blend, the multiplier of the encoder (R5). -/
def fractionMax : Int := 255

/-- `FRACTION_BITS`: the shift distance of the bias correction (R5). -/
def fractionBits : Nat := 8

/-- `A_MIN`: the lower clamp bound of a coefficient (R5). -/
def aMin : Int := 0

/-- `A_MAX`: the upper clamp bound of a coefficient, equal to `FRACTION_MAX` (R5; spec/90_conflicts.md C2). -/
def aMax : Int := fractionMax

/-- `NREG`: the number of registers (R5). -/
def nReg : Nat := 6

/-- `CMD_BITS`: the width of a command word (R5). -/
def cmdBits : Nat := 40

end Sys2Proof.Config
end

