-- ==== Sys2Proof/Word.lean ====
section
/-! DEFINITION. The word types of the block: registers and operands (spec/00_scope.md R5, R6), command and response words
(spec/30_encoding.md R40, R47), register indices (spec/20_memory.md R29). Widths are those of the parameter table of R5. -/

namespace Sys2Proof

/-- A register, an operand or a response data word: 32 bits, a signed number in two's complement (R5 `W`, R6). -/
abbrev Word := BitVec 32

/-- A command word `CMD`: 40 bits (R5 `CMD_BITS`, R40). -/
abbrev CmdWord := BitVec 40

/-- A response word `RSP`: 67 bits (R5 `RSP_BITS`, R47). -/
abbrev RspWord := BitVec 67

/-- The `REG` field of a command, the address of the register index space: 4 bits (R29, R40). -/
abbrev RegIndex := BitVec 4

end Sys2Proof
end

