-- ==== Sys2Proof/Syntax.lean ====
section
/-! DEFINITION. The seven commands of spec/opcode_table.json (spec/30_encoding.md R42, R55), one constructor per row. -/

namespace Sys2Proof

/-- A decoded command. A register operand is the 4-bit index `REG`; a number operand is the whole `DATA` field, read
signed where it is used (R44). -/
inductive Instr where
  /-- `RD reg` (spec/40_register_access.md R56). -/
  | rd (reg : RegIndex)
  /-- `WR reg, imm` (spec/40_register_access.md R57). -/
  | wr (reg : RegIndex) (value : Word)
  /-- `ENCODE imm` (spec/41_fraction_encoder.md R63). -/
  | encode (sample : Word)
  /-- `INTERP imm` (spec/42_interpolator.md R74). -/
  | interp (coeff : Word)
  /-- `MAP imm` (spec/42_interpolator.md R75). -/
  | map (sample : Word)
  /-- `PEEK` (spec/43_accumulator.md R79). -/
  | peek
  /-- `POP` (spec/43_accumulator.md R80). -/
  | pop
  deriving DecidableEq, Repr

end Sys2Proof
end

