-- ==== Sys2Proof/WellFormed.lean ====
section
/-! DEFINITION. The one constraint on decoded commands that their type does not carry: the register operand of RD and WR
names one of the six registers (spec/30_encoding.md R43, R46, R55). -/

namespace Sys2Proof

/-- The index names a register: 0 to 5 (R43); 6 to 15 are reserved. -/
def regNamed (i : RegIndex) : Bool := decide (i.toNat < Config.nReg)

/-- The command can be encoded: a register operand is a named one; every other operand value is legal (R44, R55). -/
def Instr.wellFormed : Instr → Bool
  | .rd reg => regNamed reg
  | .wr reg _ => regNamed reg
  | .encode _ => true
  | .interp _ => true
  | .map _ => true
  | .peek => true
  | .pop => true

end Sys2Proof
end

