-- ==== Sys2Proof/Decode.lean ====
section
/-! DEFINITION. The command decoder, total on all words (spec/30_encoding.md R46), rejecting by the cases of R50; the encoder,
its inverse on legal commands (R46); the opcode table's match and mask rows (R55); and the host's view of a table word. -/

namespace Sys2Proof

/-! ### Fields of a command word (R40) -/

/-- `OP = CMD[39:36]`. -/
def cmdOp (w : CmdWord) : BitVec 4 := w.extractLsb' 36 4

/-- `REG = CMD[35:32]`. -/
def cmdReg (w : CmdWord) : RegIndex := w.extractLsb' 32 4

/-- `DATA = CMD[31:0]`. -/
def cmdData (w : CmdWord) : Word := w.extractLsb' 0 32

/-- `CMD = {OP, REG, DATA}` (R40). -/
def mkCmd (op : BitVec 4) (reg : RegIndex) (data : Word) : CmdWord := op ++ reg ++ data

/-! ### The decoder -/

/-- Why a word is illegal: the cases (a) to (e) of R50. The block answers every one alike and records none (R50, R85). -/
inductive IllegalCause where
  /-- (a) `OP` is 0x0, 0x3, 0x7 or 0xA to 0xF. -/
  | reservedOp
  /-- (b) RD or WR with `REG` in 6 to 15. -/
  | reservedReg
  /-- (c) RD with `DATA` not 0. -/
  | rdDataNotZero
  /-- (d) ENCODE, INTERP or MAP with `REG` not 0. -/
  | execRegNotZero
  /-- (e) PEEK or POP with `REG` or `DATA` not 0. -/
  | laneFieldNotZero
  deriving DecidableEq, Repr

/-- The case split of R46 on the three fields. -/
def decodeFields (op : BitVec 4) (reg : RegIndex) (data : Word) : Except IllegalCause Instr :=
  if op = 0x1#4 then
    if regNamed reg then (if data = 0#32 then .ok (.rd reg) else .error .rdDataNotZero) else .error .reservedReg
  else if op = 0x2#4 then
    if regNamed reg then .ok (.wr reg data) else .error .reservedReg
  else if op = 0x4#4 then
    if reg = 0#4 then .ok (.encode data) else .error .execRegNotZero
  else if op = 0x5#4 then
    if reg = 0#4 then .ok (.interp data) else .error .execRegNotZero
  else if op = 0x6#4 then
    if reg = 0#4 then .ok (.map data) else .error .execRegNotZero
  else if op = 0x8#4 then
    if reg = 0#4 ∧ data = 0#32 then .ok .peek else .error .laneFieldNotZero
  else if op = 0x9#4 then
    if reg = 0#4 ∧ data = 0#32 then .ok .pop else .error .laneFieldNotZero
  else .error .reservedOp

/-- The decoder of R46: one of seven commands, or illegal. It depends on the word alone (R86). -/
def decode (w : CmdWord) : Except IllegalCause Instr := decodeFields (cmdOp w) (cmdReg w) (cmdData w)

/-! ### The encoder -/

/-- The encoder of R46. Its words are legal for well-formed commands. -/
def encode : Instr → CmdWord
  | .rd reg => mkCmd 0x1#4 reg 0#32
  | .wr reg value => mkCmd 0x2#4 reg value
  | .encode sample => mkCmd 0x4#4 0#4 sample
  | .interp coeff => mkCmd 0x5#4 0#4 coeff
  | .map sample => mkCmd 0x6#4 0#4 sample
  | .peek => mkCmd 0x8#4 0#4 0#32
  | .pop => mkCmd 0x9#4 0#4 0#32

/-! ### The opcode table (R55) -/

/-- One row of the opcode table: a word is a candidate when it equals `bits` under `mask`; `regLimited` is the row's
constraint `REG <= 5`, which the mask cannot express. -/
structure OpcodeRow where
  bits : CmdWord
  mask : CmdWord
  regLimited : Bool
  deriving DecidableEq, Repr

def rowRd : OpcodeRow := ⟨0x1000000000#40, 0xF0FFFFFFFF#40, true⟩
def rowWr : OpcodeRow := ⟨0x2000000000#40, 0xF000000000#40, true⟩
def rowEncode : OpcodeRow := ⟨0x4000000000#40, 0xFF00000000#40, false⟩
def rowInterp : OpcodeRow := ⟨0x5000000000#40, 0xFF00000000#40, false⟩
def rowMap : OpcodeRow := ⟨0x6000000000#40, 0xFF00000000#40, false⟩
def rowPeek : OpcodeRow := ⟨0x8000000000#40, 0xFFFFFFFFFF#40, false⟩
def rowPop : OpcodeRow := ⟨0x9000000000#40, 0xFFFFFFFFFF#40, false⟩

/-- The seven rows, in the table's order. -/
def opcodeTable : List OpcodeRow := [rowRd, rowWr, rowEncode, rowInterp, rowMap, rowPeek, rowPop]

/-- The row a command belongs to. -/
def rowOf : Instr → OpcodeRow
  | .rd _ => rowRd
  | .wr _ _ => rowWr
  | .encode _ => rowEncode
  | .interp _ => rowInterp
  | .map _ => rowMap
  | .peek => rowPeek
  | .pop => rowPop

/-- `w & mask == match` (R55). -/
def OpcodeRow.candidate (r : OpcodeRow) (w : CmdWord) : Bool := w &&& r.mask == r.bits

/-- Candidate for the row, and the row's constraint holds (R55). -/
def OpcodeRow.admits (r : OpcodeRow) (w : CmdWord) : Bool := r.candidate w && (!r.regLimited || regNamed (cmdReg w))

/-! ### The host's table words -/

/-- The command word of a table row of `nbits` bits (bits above `nbits` are 0). Commands have one length, 40 bits (R52). -/
def tableWord (nbits w : Nat) : CmdWord := BitVec.ofNat 40 (w % 2 ^ nbits)

/-- The command the decoder reads from such a word; a word of more than 40 bits is no command (R40; log entry 14). -/
def decodeTableWord (nbits w : Nat) : Option Instr :=
  if nbits ≤ Config.cmdBits then
    match decode (tableWord nbits w) with
    | .ok i => some i
    | .error _ => none
  else none

end Sys2Proof
end

