-- ==== Sys2Proof/Machine/Arith.lean ====
section
/-! DEFINITION. The arithmetic primitives of spec/00_scope.md R6 and R7, all on integers. -/

namespace Sys2Proof.Machine

/-- `sval`: the member of `S32` that a 32-bit field holds in two's complement (R6). -/
abbrev sval (u : Word) : Int := u.toInt

/-- `bits32`: the 32 bits of an integer, `v mod 2^32` (R6). -/
abbrev bits32 (v : Int) : Word := BitVec.ofInt 32 v

/-- `floor_div(n, d)` for `d > 0`: the greatest integer `q` with `q * d <= n` (R7). Lean's integer division is that floor for a
positive divisor; no other divisor is used (log entry 12). -/
def floorDiv (n d : Int) : Int := n / d

/-- `clamp(v, lo, hi)` for `lo <= hi` (R7). -/
def clamp (v lo hi : Int) : Int := if v < lo then lo else if hi < v then hi else v

/-- `asr(v, k)`: arithmetic shift right, rounding toward minus infinity (R7). -/
def asr (v : Int) (k : Nat) : Int := floorDiv v (2 ^ k)

/-- `fits32(v)`: `v` is in `S32` (R7). -/
def fits32 (v : Int) : Bool := decide (-2147483648 ≤ v ∧ v ≤ 2147483647)

/-- `wrap32(v)`: the member of `S32` congruent to `v` modulo `2^32` (R7). -/
def wrap32 (v : Int) : Int := sval (bits32 v)

end Sys2Proof.Machine
end

