-- ==== Sys2Proof/Machine/State.lean ====
section
/-! DEFINITION. The machine's state: the six registers of spec/10_state.md R13, R14, with the host's remaining moves and the
responses it has received (spec/70_reset_and_hazards.md R107); the stop reasons; the state after reset. -/

namespace Sys2Proof.Machine

/-- The register file, `x[0]` to `x[5]` (R14): the WHOLE state of the block (R13). Every 32-bit pattern is a legal value of
every register, and no relation between them is kept (R26). -/
structure Regs where
  /-- `CAL_LOW`, index 0: the calibrated range's low bound (R15). -/
  calLow : Word
  /-- `CAL_HIGH`, index 1: the calibrated range's high bound (R15). -/
  calHigh : Word
  /-- `EXP_LOW`, index 2, also `BASE0`: the expected range's low bound, the blend endpoint x0 (R16). -/
  expLow : Word
  /-- `EXP_HIGH`, index 3, also `BASE1`: the expected range's high bound, the blend endpoint x1 (R16). -/
  expHigh : Word
  /-- `ACCUM`, index 4: the lane's accumulator (R17). -/
  accum : Word
  /-- `STEP`, index 5: the amount one POP adds to `ACCUM` (R18). -/
  step : Word
  deriving DecidableEq, Repr

/-- One move of the host (R39, R97, R98, R108). A second command before the response to the first is no move (R105;
log entry 15). -/
inductive HostMove where
  /-- Present a command word, legal or not, and wait for its response (R39). -/
  | command (w : CmdWord)
  /-- Apply the reset input while the block is idle (R97). -/
  | reset
  /-- Present a command word and apply reset before its response arrives (R98; log entry 5). -/
  | commandCutByReset (w : CmdWord)
  deriving DecidableEq, Repr

/-- The block's registers, and the two ports of a run: what the host will still do, next move first, and the response words
it has received, oldest first (R107; log entries 1 and 2). Only `regs` is state of the block; no command reads the other
two (R22, R24). -/
structure State where
  regs : Regs
  script : List HostMove
  responses : List RspWord
  deriving DecidableEq, Repr

/-- Reasons the machine stops with a fault: none. The block's own faults, DomainError and IllegalCommand, are responses
after which it goes on (spec/60_exceptions.md R89, R90; log entry 4), so they are next states. Nobody raises a value of this
type; safe. -/
inductive Fault where
  deriving DecidableEq, Repr

/-- Reasons a step is refused. -/
inductive Refusal where
  /-- Raised only by an arm of `exec` whose command has no meaning yet; no arm is such. Safe: it stops. -/
  | notModelled (mnemonic : String)
  deriving DecidableEq, Repr

/-- The registers after reset: all 0 (spec/10_state.md R27). -/
def Regs.reset : Regs :=
  { calLow := 0#32, calHigh := 0#32, expLow := 0#32, expHigh := 0#32, accum := 0#32, step := 0#32 }

/-- The machine right after reset: every register 0 (R27), no host move made yet and no response received (log entries 1,
2 and 7). -/
def State.reset : State :=
  { regs := Regs.reset, script := [], responses := [] }

end Sys2Proof.Machine
end

