-- ==== Sys2Proof/Machine/Operands.lean ====
section
/-! DEFINITION. Operand forms: a register named by its index (the address map of spec/20_memory.md R34) and a number offered
as a coefficient (spec/42_interpolator.md R72). The operand `DATA` is used whole, read by `sval` (spec/30_encoding.md R44). -/

namespace Sys2Proof.Machine

/-- `x[i]` (spec/00_scope.md R8, spec/10_state.md R14). Indices 6 to 15 name no register (R34). -/
def readReg (r : Regs) (i : RegIndex) : Option Word :=
  if i = 0#4 then some r.calLow
  else if i = 1#4 then some r.calHigh
  else if i = 2#4 then some r.expLow
  else if i = 3#4 then some r.expHigh
  else if i = 4#4 then some r.accum
  else if i = 5#4 then some r.step
  else none

/-- `x[i] <- v`: all 32 bits of the one register (R8, R32). Indices 6 to 15 name no register (R34). -/
def writeReg (r : Regs) (i : RegIndex) (v : Word) : Option Regs :=
  if i = 0#4 then some { r with calLow := v }
  else if i = 1#4 then some { r with calHigh := v }
  else if i = 2#4 then some { r with expLow := v }
  else if i = 3#4 then some { r with expHigh := v }
  else if i = 4#4 then some { r with accum := v }
  else if i = 5#4 then some { r with step := v }
  else none

/-- The coefficient input stage, the one way a number becomes a coefficient: `clamp(c, A_MIN, A_MAX)` (R72). -/
def coefficient (c : Int) : Int := clamp c Config.aMin Config.aMax

end Sys2Proof.Machine
end

