-- ==== Sys2Proof/Machine/Flags.lean ====
section
/-! DEFINITION. The response word and its two flag-like fields: the status code `ST` and the overflow flag `OVF`
(spec/30_encoding.md R47, R48; spec/42_interpolator.md R70). They are outputs of a command, not state (spec/10_state.md R22). -/

namespace Sys2Proof.Machine

/-- The two kinds of fault a command can raise (spec/60_exceptions.md R83). They carry nothing but their kind (R85). -/
inductive FaultKind where
  /-- A range the command uses is degenerate (R84). -/
  | domainError
  /-- The command word is illegal (R86). -/
  | illegalCommand
  deriving DecidableEq, Repr

/-- The status of a response (R48). The code 0b11 is never produced, so it has no name here. -/
inductive Status where
  | ok
  | domainError
  | illegalCommand
  deriving DecidableEq, Repr

/-- The two bits of a status (R48). -/
def Status.code : Status → BitVec 2
  | .ok => 0b00#2
  | .domainError => 0b01#2
  | .illegalCommand => 0b10#2

/-- The status that reports a fault (R83). -/
def FaultKind.status : FaultKind → Status
  | .domainError => .domainError
  | .illegalCommand => .illegalCommand

/-- `RSP = {OVF, ST, D1, D0}` (R47). -/
def rspWord (ovf : Bool) (st : Status) (d1 d0 : Word) : RspWord := BitVec.ofBool ovf ++ st.code ++ d1 ++ d0

/-- The word of `respond(OK, ovf, d1, d0)` (R47). -/
def okWord (ovf : Bool) (d1 d0 : Word) : RspWord := rspWord ovf .ok d1 d0

/-- The word of `raise k`: OVF, D1 and D0 are zero (R47). -/
def faultWord (k : FaultKind) : RspWord := rspWord false k.status 0#32 0#32

/-- `OVF = RSP[66]` (R47). -/
def rspOvf (w : RspWord) : Bool := w.getLsbD 66

/-- `ST = RSP[65:64]` (R47). -/
def rspSt (w : RspWord) : BitVec 2 := w.extractLsb' 64 2

/-- `D1 = RSP[63:32]` (R47). -/
def rspD1 (w : RspWord) : Word := w.extractLsb' 32 32

/-- `D0 = RSP[31:0]` (R47). -/
def rspD0 (w : RspWord) : Word := w.extractLsb' 0 32

/-- `corrected_exact`: the blended value plus its bias, not truncated (spec/42_interpolator.md R69). -/
def correctedExact (raw : Int) : Int := raw + asr raw Config.fractionBits

/-- The overflow flag: the exact corrected value is not in `S32` (R70). -/
def correctionOverflows (raw : Int) : Bool := !fits32 (correctedExact raw)

end Sys2Proof.Machine
end

