-- ==== Sys2Proof/Machine/Ops.lean ====
section
/-! DEFINITION. The shared operations of every command and of the host's moves: the two ways a command ends
(spec/00_scope.md R9), reset (spec/70_reset_and_hazards.md R97) and the taking of the host's next move. -/

namespace Sys2Proof.Machine

/-- What a command or a step ends in. -/
abbrev Result := Host.Outcome State Fault Refusal

/-- Present one response word to the host (spec/30_encoding.md R39): it is the last of the responses received. -/
def answer (w : RspWord) (s : State) : State := { s with responses := s.responses ++ [w] }

/-- Replace the registers: all writes of one command take effect together (spec/00_scope.md R8). -/
def setRegs (r : Regs) (s : State) : State := { s with regs := r }

/-- `respond(OK, ovf, d1, d0)` (R9, R47). -/
def respond (ovf : Bool) (d1 d0 : Word) (s : State) : Result := .next (answer (okWord ovf d1 d0) s)

/-- `raise k`, the ONE taking of a fault: the fault response, no register changed, nothing saved, and the block at once ready
for the next command (R9, spec/60_exceptions.md R85, R89). There is no return from a fault to model: nothing was saved and
nothing is sticky (R90). -/
def raise (k : FaultKind) (s : State) : Result := .next (answer (faultWord k) s)

/-- The reset input: all six registers take their reset value, and no response is produced (R97). The host keeps its own record
of responses and its own plans (log entry 6). -/
def applyReset (s : State) : State := setRegs Regs.reset s

/-- The host's plans are taken up to here. -/
def setScript (moves : List HostMove) (s : State) : State := { s with script := moves }

end Sys2Proof.Machine
end

