-- ==== Sys2Proof/Machine/FractionEncoder.lean ====
section
/-! DEFINITION. The fraction encoder and ENCODE (spec/41_fraction_encoder.md R59 to R63). -/

namespace Sys2Proof.Machine

/-- The unclamped quotient `floor_div(FRACTION_MAX * (s - lo), hi - lo)`, exact (R61). -/
def encodeQuotient (s lo hi : Int) : Int := floorDiv (Config.fractionMax * (s - lo)) (hi - lo)

/-- `encode_core`: the domain check first (R60), then the quotient (R61), then the clamp (R62). -/
def encodeCore (s lo hi : Int) : Except FaultKind Int :=
  if hi ≤ lo then .error .domainError
  else .ok (clamp (encodeQuotient s lo hi) Config.aMin Config.aMax)

/-- ENCODE: the coefficient of a sample; it writes no register and does not look at the expected range (R63). -/
def execEncode (sample : Word) (s : State) : Result :=
  match encodeCore (sval sample) (sval s.regs.calLow) (sval s.regs.calHigh) with
  | .ok a => respond false 0#32 (bits32 a) s
  | .error k => raise k s

end Sys2Proof.Machine
end

