-- ==== Sys2Proof/Machine/Interpolator.lean ====
section
/-! DEFINITION. The endpoint blender, the bias correction, INTERP and MAP (spec/42_interpolator.md R65 to R75). -/

namespace Sys2Proof.Machine

/-- The source's InterpolationResult with its overflow flag (spec/30_encoding.md R49). -/
structure InterpResult where
  /-- `raw_value`, answered in `D0`. -/
  raw : Int
  /-- `corrected`, wrapped to 32 bits, answered in `D1`. -/
  corrected : Int
  /-- The overflow of the correction, answered in `OVF`. -/
  ovf : Bool
  deriving DecidableEq, Repr

/-- The blend `x0 + floor_div((x1 - x0) * a, FRACTION_MAX)`, exact (R67). -/
def blend (a x0 x1 : Int) : Int := x0 + floorDiv ((x1 - x0) * a) Config.fractionMax

/-- The bias correction `wrap32(raw_value + asr(raw_value, FRACTION_BITS))` (R69). -/
def corrected (raw : Int) : Int := wrap32 (correctedExact raw)

/-- `interp_core`, the one definition that INTERP, MAP, PEEK and POP call: domain check (R66), coefficient stage (R72), blend
(R67), correction (R69), overflow flag (R70), in that order (R73). -/
def interpCore (c x0 x1 : Int) : Except FaultKind InterpResult :=
  if x1 ≤ x0 then .error .domainError
  else
    let raw := blend (coefficient c) x0 x1
    .ok { raw := raw, corrected := corrected raw, ovf := correctionOverflows raw }

/-- How INTERP, MAP, PEEK and POP end: `D0` is `raw_value`, `D1` is `corrected`, `OVF` the overflow (R49), or the fault; `r` are
the registers the command leaves when it succeeds (a fault leaves them alone, R89). -/
def finishInterp (res : Except FaultKind InterpResult) (r : Regs) (s : State) : Result :=
  match res with
  | .ok v => respond v.ovf (bits32 v.corrected) (bits32 v.raw) (setRegs r s)
  | .error k => raise k s

/-- INTERP: blend and correct with the coefficient the host gives; it writes no register (R74). -/
def execInterp (coeff : Word) (s : State) : Result :=
  finishInterp (interpCore (sval coeff) (sval s.regs.expLow) (sval s.regs.expHigh)) s.regs s

/-- The value of MAP: `encode_core`, then `interp_core`, the calibrated range tested first (R75, spec/60_exceptions.md R88). -/
def mapCore (sample calLow calHigh expLow expHigh : Int) : Except FaultKind InterpResult :=
  match encodeCore sample calLow calHigh with
  | .ok a => interpCore a expLow expHigh
  | .error k => .error k

/-- MAP: encode a sample, then blend and correct; it writes no register (R75). -/
def execMap (sample : Word) (s : State) : Result :=
  finishInterp (mapCore (sval sample) (sval s.regs.calLow) (sval s.regs.calHigh) (sval s.regs.expLow) (sval s.regs.expHigh))
    s.regs s

end Sys2Proof.Machine
end

