-- ==== Sys2Proof/Machine/Accumulator.lean ====
section
/-! DEFINITION. The lane and its two reads, PEEK and POP (spec/43_accumulator.md R77 to R80). -/

namespace Sys2Proof.Machine

/-- `lane_value`: the whole signed accumulator offered to the coefficient stage of `interp_core` (the fractional selector, R77)
with the two base endpoints (R78). -/
def laneValue (r : Regs) : Except FaultKind InterpResult :=
  interpCore (sval r.accum) (sval r.expLow) (sval r.expHigh)

/-- The registers after a pop: `ACCUM <- wrap32(ACCUM + STEP)`, nothing else (R80). -/
def advanceAccum (r : Regs) : Regs := { r with accum := bits32 (wrap32 (sval r.accum + sval r.step)) }

/-- PEEK: the lane's value, no side effect (R79). -/
def execPeek (s : State) : Result := finishInterp (laneValue s.regs) s.regs s

/-- POP: the lane's value from before the increment, then the increment; a POP that faults does not advance (R80). -/
def execPop (s : State) : Result := finishInterp (laneValue s.regs) (advanceAccum s.regs) s

end Sys2Proof.Machine
end

