-- ==== Sys2Proof/Machine/RegisterAccess.lean ====
section
/-! DEFINITION. RD and WR (spec/40_register_access.md R56 to R58). -/

namespace Sys2Proof.Machine

/-- RD: answer `x[i]`; no side effect on any register (R56). An index that names no register raises IllegalCommand (R34, R86;
log entry 8). -/
def execRd (reg : RegIndex) (s : State) : Result :=
  match readReg s.regs reg with
  | some v => respond false 0#32 v s
  | none => raise .illegalCommand s

/-- WR: `x[i] <- v`, any value to any register; ranges are neither validated nor frozen (R57, R58). An index that names no
register raises IllegalCommand and changes nothing (R34, R86; log entry 8). -/
def execWr (reg : RegIndex) (value : Word) (s : State) : Result :=
  match writeReg s.regs reg value with
  | some r => respond false 0#32 0#32 (setRegs r s)
  | none => raise .illegalCommand s

end Sys2Proof.Machine
end

