-- ==== Sys2Proof/Machine/Dispatch.lean ====
section
/-! DEFINITION. One arm per command; every command has its meaning. -/

namespace Sys2Proof.Machine

def exec (i : Instr) (s : State) : Host.Outcome State Fault Refusal :=
  match i with
  | .rd reg => Sys2Proof.Machine.execRd reg s
  | .wr reg value => Sys2Proof.Machine.execWr reg value s
  | .encode sample => Sys2Proof.Machine.execEncode sample s
  | .interp coeff => Sys2Proof.Machine.execInterp coeff s
  | .map sample => Sys2Proof.Machine.execMap sample s
  | .peek => Sys2Proof.Machine.execPeek s
  | .pop => Sys2Proof.Machine.execPop s

end Sys2Proof.Machine
end

