-- ==== Sys2Proof/Machine/Command.lean ====
section
/-! DEFINITION. One host move performed: a command word decoded and run as one atomic step (spec/30_encoding.md R39,
spec/20_memory.md R32), or reset (spec/70_reset_and_hazards.md R97, R98). -/

namespace Sys2Proof.Machine

/-- A command word presented to the block: decoding comes first, and an illegal word raises IllegalCommand with the ranges
not examined (spec/60_exceptions.md R86, R88); a legal word's command runs. -/
def runCommand (w : CmdWord) (s : State) : Result :=
  match decode w with
  | .ok i => exec i s
  | .error _ => raise .illegalCommand s

/-- One move of the host. A command cut off by reset produces no response and leaves the registers in the reset state, whether
or not it had taken effect (R98). -/
def runMove (m : HostMove) (s : State) : Result :=
  match m with
  | .command w => runCommand w s
  | .reset => .next (applyReset s)
  | .commandCutByReset _ => .next (applyReset s)

end Sys2Proof.Machine
end

