-- ==== Sys2Proof/Machine/Step.lean ====
section
/-! DEFINITION. The step: the block answers the host's next move, or waits when there is none (spec/00_scope.md R11). -/

namespace Sys2Proof.Machine

/-- One step. With no move left the block does nothing: it never acts except in answer to a command or to reset (R11; log
entry 3). -/
def step (s : State) : Host.Outcome State Fault Refusal :=
  match s.script with
  | [] => .next s
  | m :: rest => runMove m (setScript rest s)

/-- The state in which the host's next move presents the table word `w` of `nbits` bits (log entry 7). -/
def State.withFetchWord (s : State) (nbits w : Nat) : State :=
  setScript (.command (tableWord nbits w) :: s.script) s

end Sys2Proof.Machine
end

