-- ==== Sys2Proof/Machine/Assembler.lean ====
section
/-! DEFINITION. The assembler syntax of spec/30_encoding.md R53 and the pseudo-instructions of R54: text to commands, total,
`none` for an assembly error. Text is a list of characters. What R53 leaves open is in log entries 13 and 17. -/

namespace Sys2Proof.Machine

abbrev Text := List Char

/-! ### Numbers -/

/-- The value of a digit, decimal or hexadecimal. -/
def digitVal (c : Char) : Option Nat :=
  let n := c.toNat
  if 48 ≤ n ∧ n ≤ 57 then some (n - 48)
  else if 65 ≤ n ∧ n ≤ 70 then some (n - 55)
  else if 97 ≤ n ∧ n ≤ 102 then some (n - 87)
  else none

/-- The digits read in a base, most significant first, on from `acc`. -/
def readDigits (base acc : Nat) : Text → Option Nat
  | [] => some acc
  | c :: cs =>
    match digitVal c with
    | some d => if d < base then readDigits base (acc * base + d) cs else none
    | none => none

/-- A nonempty string of digits in a base, with its value at most `bound`. -/
def readNumber (base bound : Nat) (t : Text) : Option Nat :=
  match t with
  | [] => none
  | c :: cs =>
    match readDigits base 0 (c :: cs) with
    | some n => if n ≤ bound then some n else none
    | none => none

/-- `imm` (R53): a hexadecimal literal gives the 32 bits of `DATA` directly; a decimal one is a member of `S32`, with an
optional leading minus sign. -/
def readImm (t : Text) : Option Word :=
  match t with
  | '0' :: 'x' :: cs => (readNumber 16 4294967295 cs).map (BitVec.ofNat 32)
  | '-' :: cs => (readNumber 10 2147483648 cs).map (fun n => bits32 (-(n : Int)))
  | cs => (readNumber 10 2147483647 cs).map (BitVec.ofNat 32)

/-! ### Names -/

/-- The register names of R53, aliases included, with their indices (spec/30_encoding.md R43). That `x0` to `x5` are the indices
0 to 5 is the model's reading (DEDUCED, log entry 17): R53 does not say which register each is, and the alias column of
spec/10_state.md R14 gives x0 and x1, the endpoints of the blend, for `EXP_LOW` and `EXP_HIGH`. -/
def regNames : List (Text × RegIndex) :=
  [(['C', 'A', 'L', '_', 'L', 'O', 'W'], 0#4), (['C', 'A', 'L', '_', 'H', 'I', 'G', 'H'], 1#4),
   (['E', 'X', 'P', '_', 'L', 'O', 'W'], 2#4), (['E', 'X', 'P', '_', 'H', 'I', 'G', 'H'], 3#4),
   (['A', 'C', 'C', 'U', 'M'], 4#4), (['S', 'T', 'E', 'P'], 5#4),
   (['B', 'A', 'S', 'E', '0'], 2#4), (['B', 'A', 'S', 'E', '1'], 3#4),
   (['x', '0'], 0#4), (['x', '1'], 1#4), (['x', '2'], 2#4), (['x', '3'], 3#4), (['x', '4'], 4#4), (['x', '5'], 5#4)]

/-- The first words of a line: the seven mnemonics and the three pseudo-instructions (R53, R54). -/
inductive Mnemonic where
  | rd | wr | encode | interp | map | peek | pop | setcal | setexp | setlane
  deriving DecidableEq, Repr

def mnemonicNames : List (Text × Mnemonic) :=
  [(['R', 'D'], .rd), (['W', 'R'], .wr), (['E', 'N', 'C', 'O', 'D', 'E'], .encode),
   (['I', 'N', 'T', 'E', 'R', 'P'], .interp), (['M', 'A', 'P'], .map), (['P', 'E', 'E', 'K'], .peek), (['P', 'O', 'P'], .pop),
   (['S', 'E', 'T', 'C', 'A', 'L'], .setcal), (['S', 'E', 'T', 'E', 'X', 'P'], .setexp),
   (['S', 'E', 'T', 'L', 'A', 'N', 'E'], .setlane)]

/-- `reg` (R53): one of the names, or an assembly error. -/
def readRegName (t : Text) : Option RegIndex := regNames.lookup t

/-! ### Pseudo-instructions (R54) -/

/-- `SETCAL lo, hi`. -/
def setCal (lo hi : Word) : List Instr := [.wr 0#4 lo, .wr 1#4 hi]

/-- `SETEXP lo, hi`. -/
def setExp (lo hi : Word) : List Instr := [.wr 2#4 lo, .wr 3#4 hi]

/-- `SETLANE acc, step`. -/
def setLane (acc stp : Word) : List Instr := [.wr 4#4 acc, .wr 5#4 stp]

/-! ### Lines -/

/-- A blank: space, tab or carriage return (DESIGN CHOICE: R53 names none, log entry 13). -/
def isBlank (c : Char) : Bool := c = ' ' || c = '\t' || c = '\r'

/-- Without the blanks at both ends. -/
def trimBlanks (t : Text) : Text := ((t.dropWhile isBlank).reverse.dropWhile isBlank).reverse

/-- Cut at every separator. -/
def cutAt (sep : Char) : Text → List Text
  | [] => [[]]
  | c :: cs =>
    match cutAt sep cs with
    | [] => [[c]]
    | t :: ts => if c = sep then [] :: t :: ts else (c :: t) :: ts

/-- The operands of a line: none, or cut at the commas. -/
def operandsOf (t : Text) : List Text :=
  if trimBlanks t = [] then [] else (cutAt ',' t).map trimBlanks

/-- Two numbers given to an expansion. -/
def withImms (f : Word → Word → List Instr) (a b : Text) : Option (List Instr) :=
  match readImm a, readImm b with
  | some x, some y => some (f x y)
  | _, _ => none

/-- One statement; a missing or extra operand, a bad name or a number out of range is an assembly error (R53). -/
def assembleStatement (m : Mnemonic) (operands : List Text) : Option (List Instr) :=
  match m, operands with
  | .rd, [r] => (readRegName r).map fun i => [.rd i]
  | .wr, [r, v] =>
    match readRegName r, readImm v with
    | some i, some x => some [.wr i x]
    | _, _ => none
  | .encode, [v] => (readImm v).map fun x => [.encode x]
  | .interp, [v] => (readImm v).map fun x => [.interp x]
  | .map, [v] => (readImm v).map fun x => [.map x]
  | .peek, [] => some [.peek]
  | .pop, [] => some [.pop]
  | .setcal, [a, b] => withImms setCal a b
  | .setexp, [a, b] => withImms setExp a b
  | .setlane, [a, b] => withImms setLane a b
  | _, _ => none

/-- One line: a comment runs from `;` to the end (R53). Where R53 is silent the model accepts (DESIGN CHOICE, log entry 13)
blanks before the mnemonic, between it and the operands and at the end of the line, and a line with nothing but blanks or a
comment, which holds no command. -/
def assembleLine (line : Text) : Option (List Instr) :=
  let body := trimBlanks (line.takeWhile (· ≠ ';'))
  if body = [] then some []
  else
    match mnemonicNames.lookup (body.takeWhile (fun c => !isBlank c)) with
    | some m => assembleStatement m (operandsOf (body.dropWhile (fun c => !isBlank c)))
    | none => none

/-- The commands of several lines in order; one assembly error is an error of the whole. -/
def assembleLines : List Text → Option (List Instr)
  | [] => some []
  | l :: ls =>
    match assembleLine l, assembleLines ls with
    | some xs, some ys => some (xs ++ ys)
    | _, _ => none

/-- A program text, one command per line (R53). -/
def assemble (source : Text) : Option (List Instr) := assembleLines (cutAt '\n' source)

/-- The host's moves for a program: each command presented in turn (spec/70_reset_and_hazards.md R107). -/
def present (program : List Instr) : List HostMove := program.map fun i => .command (encode i)

end Sys2Proof.Machine
end

