-- ==== Sys2Proof/Safety.lean ====
section
/-! DEFINITION. What statements say of responses and runs: the response words the block can produce (spec/30_encoding.md R47
to R49), runs with no fault response (spec/70_reset_and_hazards.md R107) and the invariant of the responses. -/

namespace Sys2Proof.Machine

/-- The response reports success: `ST` is OK (R48). A host must see this before it uses `D0` and `D1` (R105). -/
def responseOk (w : RspWord) : Bool := rspSt w == 0b00#2

/-- A success response is consistent (R49): either the second word and the flag are 0 (RD, WR, ENCODE), or they are the bias
correction of the first word and its overflow (INTERP, MAP, PEEK, POP; spec/42_interpolator.md R69, R70). -/
def okConsistent (w : RspWord) : Bool :=
  (rspD1 w == 0#32 && !rspOvf w) ||
  (rspD1 w == bits32 (correctedExact (sval (rspD0 w))) && (rspOvf w == correctionOverflows (sval (rspD0 w))))

/-- A word the block can answer with: the DomainError word, the IllegalCommand word, or a consistent success response. The
status 0b11 is among none of them (R47, R48). -/
def legalResponse (w : RspWord) : Bool :=
  w == faultWord .domainError || w == faultWord .illegalCommand || (responseOk w && okConsistent w)

/-- Every response received so far is a word the block can answer with. -/
abbrev ResponsesLegal (s : State) : Prop := ∀ w ∈ s.responses, legalResponse w = true

/-- A run so far without a fault response: what a claim about a mapping takes as something to prove (R107). -/
abbrev NoFaultSeen (s : State) : Prop := ∀ w ∈ s.responses, responseOk w = true

/-- The calibrated range is not degenerate (spec/60_exceptions.md R84), in the signed order. -/
abbrev CalValid (r : Regs) : Prop := sval r.calLow < sval r.calHigh

/-- The expected range is not degenerate (R84). -/
abbrev ExpValid (r : Regs) : Prop := sval r.expLow < sval r.expHigh

/-- How many command words of the moves get a response: those not cut off by reset (R39, R98). -/
def answersDue : List HostMove → Nat
  | [] => 0
  | .command _ :: ms => answersDue ms + 1
  | .reset :: ms => answersDue ms
  | .commandCutByReset _ :: ms => answersDue ms

/-- The state in which the host is about to run a sequence of moves from given registers, no response received yet. -/
def startRun (r : Regs) (moves : List HostMove) : State := { regs := r, script := moves, responses := [] }

end Sys2Proof.Machine
end

