-- ==== Sys2Proof/Certificates/Slice0/Obligations.lean ====
section
/-! DEFINITION. The statements for the provers. Numbers are read from registers and operands by `BitVec.toInt`, written by
`BitVec.ofInt 32`, divided by the floor division `Int.fdiv`: the formulas of spec/ are written out again here, apart from the
model's own functions. A response word is named by `okWord` and `faultWord`, whose bits `ResponseWordLayout` fixes. -/

namespace Sys2Proof.Stated

open Sys2Proof Sys2Proof.Machine

/-- The coefficient of a sample: `clamp(floor_div(255 * (s - lo), hi - lo), 0, 255)` (spec/41_fraction_encoder.md R61, R62). -/
def encoded (s lo hi : Int) : Int := max 0 (min 255 (Int.fdiv (255 * (s - lo)) (hi - lo)))

/-- `raw_value`: the blend at the clamped coefficient (spec/42_interpolator.md R67, R72). -/
def rawValue (c x0 x1 : Int) : Int := x0 + Int.fdiv ((x1 - x0) * max 0 (min 255 c)) 255

/-- `corrected_exact` (spec/42_interpolator.md R69). -/
def correctedValue (raw : Int) : Int := raw + Int.fdiv raw 256

/-- The response of a successful blend: `D0` raw, `D1` corrected and wrapped, `OVF` when the exact corrected value is not a
32-bit number (spec/42_interpolator.md R67, R69, R70; spec/30_encoding.md R49). -/
def blendWord (c x0 x1 : Int) : RspWord :=
  okWord (decide (correctedValue (rawValue c x0 x1) < -2147483648 ∨ 2147483647 < correctedValue (rawValue c x0 x1)))
    (BitVec.ofInt 32 (correctedValue (rawValue c x0 x1))) (BitVec.ofInt 32 (rawValue c x0 x1))

/-- The word of an operation code, a register field and a data field (spec/30_encoding.md R40). -/
def word (op : BitVec 4) (reg : BitVec 4) (data : BitVec 32) : CmdWord := op ++ reg ++ data

/-- The writes of the table of spec/10_state.md R19: which registers a command leaves as they were. -/
def KeepsOtherRegs (i : Instr) (before after : Regs) : Prop :=
  match i with
  | .wr reg _ => ∀ j : RegIndex, j ≠ reg → readReg after j = readReg before j
  | .pop => ∀ j : RegIndex, j ≠ 4#4 → readReg after j = readReg before j
  | .rd _ | .encode _ | .interp _ | .map _ | .peek => after = before

/-- The reads of that table, as far as the response depends on them: two register files that a command cannot tell apart by
its response (POP reads `STEP` too, for the next `ACCUM`). -/
def AgreeOnReads (i : Instr) (r r' : Regs) : Prop :=
  match i with
  | .rd reg => readReg r reg = readReg r' reg
  | .wr _ _ => True
  | .encode _ => r.calLow = r'.calLow ∧ r.calHigh = r'.calHigh
  | .interp _ => r.expLow = r'.expLow ∧ r.expHigh = r'.expHigh
  | .map _ => r.calLow = r'.calLow ∧ r.calHigh = r'.calHigh ∧ r.expLow = r'.expLow ∧ r.expHigh = r'.expHigh
  | .peek | .pop => r.expLow = r'.expLow ∧ r.expHigh = r'.expHigh ∧ r.accum = r'.accum

/-- In state `s`, a WR of the word `wr` answers OK and leaves the registers `r`, and each of the commands `uses`, presented right
after it, answers DomainError and leaves them so (spec/40_register_access.md R58). -/
def DegenerateFoundBy (s : State) (wr : CmdWord) (r : Regs) (uses : List CmdWord) (rest : List HostMove) : Prop :=
  ∀ use ∈ uses,
    Host.Core.run Sys2Proof.core 2 { s with script := .command wr :: .command use :: rest } =
      .next { regs := r, script := rest, responses := s.responses ++ [okWord false 0#32 0#32, faultWord .domainError] }

/-- The word is one the decoder rejects. -/
def Rejected (w : CmdWord) : Prop := ∃ c, decode w = .error c

end Sys2Proof.Stated

open Sys2Proof Sys2Proof.Machine Sys2Proof.Stated

/-! ### Register access -/

/-- R56: RD of each register answers OK with the register in `D0`, `D1` and `OVF` 0, and changes nothing but the responses; its
word has OP 0x1; REG 6 to 15 or a nonzero DATA is rejected at decode. -/
def Obligations.RdReadsTheNamedRegister : Prop :=
  (∀ s : State,
    exec (.rd 0#4) s = .next (answer (okWord false 0#32 s.regs.calLow) s) ∧
    exec (.rd 1#4) s = .next (answer (okWord false 0#32 s.regs.calHigh) s) ∧
    exec (.rd 2#4) s = .next (answer (okWord false 0#32 s.regs.expLow) s) ∧
    exec (.rd 3#4) s = .next (answer (okWord false 0#32 s.regs.expHigh) s) ∧
    exec (.rd 4#4) s = .next (answer (okWord false 0#32 s.regs.accum) s) ∧
    exec (.rd 5#4) s = .next (answer (okWord false 0#32 s.regs.step) s)) ∧
  (∀ i : RegIndex, i.toNat ≤ 5 → decode (word 0x1#4 i 0#32) = .ok (.rd i)) ∧
  (∀ (i : RegIndex) (d : Word), 5 < i.toNat ∨ d ≠ 0#32 → Rejected (word 0x1#4 i d))

/-- R57: WR of any value to each register completes with the all-zero OK response, writes that register whole and no other; its
word has OP 0x2; REG 6 to 15 is rejected at decode. -/
def Obligations.WrWritesTheNamedRegisterOnly : Prop :=
  (∀ (s : State) (v : Word),
    exec (.wr 0#4 v) s = .next (answer (okWord false 0#32 0#32) { s with regs := { s.regs with calLow := v } }) ∧
    exec (.wr 1#4 v) s = .next (answer (okWord false 0#32 0#32) { s with regs := { s.regs with calHigh := v } }) ∧
    exec (.wr 2#4 v) s = .next (answer (okWord false 0#32 0#32) { s with regs := { s.regs with expLow := v } }) ∧
    exec (.wr 3#4 v) s = .next (answer (okWord false 0#32 0#32) { s with regs := { s.regs with expHigh := v } }) ∧
    exec (.wr 4#4 v) s = .next (answer (okWord false 0#32 0#32) { s with regs := { s.regs with accum := v } }) ∧
    exec (.wr 5#4 v) s = .next (answer (okWord false 0#32 0#32) { s with regs := { s.regs with step := v } })) ∧
  (∀ (i : RegIndex) (v : Word), i.toNat ≤ 5 → decode (word 0x2#4 i v) = .ok (.wr i v)) ∧
  (∀ (i : RegIndex) (v : Word), 5 < i.toNat → Rejected (word 0x2#4 i v))

/-- The model's reading (log entry 8): RD or WR built with an index that names no register, which no word decodes to, still
raises IllegalCommand and changes nothing, as spec/20_memory.md R34 says of those indices. -/
def Obligations.ReservedIndexRaisesIllegalCommand : Prop :=
  ∀ (s : State) (i : RegIndex) (v : Word), 5 < i.toNat →
    exec (.rd i) s = .next (answer (faultWord .illegalCommand) s) ∧
    exec (.wr i v) s = .next (answer (faultWord .illegalCommand) s)

/-- R35 (d): a WR presented to the block and an RD presented next: the RD answers the value written, or the old value where it
reads another register. -/
def Obligations.ReadAfterWriteReturnsLastWrite : Prop :=
  ∀ (s : State) (i j : RegIndex) (v : Word) (rest : List HostMove), i.toNat ≤ 5 → j.toNat ≤ 5 →
    ∃ (t : State) (old : Word), readReg s.regs j = some old ∧
      Host.Core.run Sys2Proof.core 2
        { s with script := .command (word 0x2#4 i v) :: .command (word 0x1#4 j 0#32) :: rest } = .next t ∧
      t.script = rest ∧
      t.responses = s.responses ++ [okWord false 0#32 0#32, okWord false 0#32 (if i = j then v else old)]

/-- R101: the order of two WRs to different registers does not matter: the same registers and responses either way. -/
def Obligations.WritesToDifferentRegistersCommute : Prop :=
  ∀ (s : State) (i j : RegIndex) (a b : Word) (rest : List HostMove), i.toNat ≤ 5 → j.toNat ≤ 5 → i ≠ j →
    ∃ t : State,
      Host.Core.run Sys2Proof.core 2
        { s with script := .command (word 0x2#4 i a) :: .command (word 0x2#4 j b) :: rest } = .next t ∧
      Host.Core.run Sys2Proof.core 2
        { s with script := .command (word 0x2#4 j b) :: .command (word 0x2#4 i a) :: rest } = .next t ∧
      readReg t.regs i = some a ∧ readReg t.regs j = some b

/-- R58: a WR of either bound of a range that leaves the range degenerate succeeds, and every command that uses the range,
presented right after it, answers DomainError, for every operand: ENCODE and MAP for the calibrated range, INTERP, MAP, PEEK and
POP for the expected range (for POP, `ACCUM` stays as it was). -/
def Obligations.DegenerateWriteIsFoundAtUse : Prop :=
  ∀ (s : State) (v x : Word) (rest : List HostMove),
    (s.regs.calHigh.toInt ≤ v.toInt →
      DegenerateFoundBy s (word 0x2#4 0#4 v) { s.regs with calLow := v }
        [word 0x4#4 0#4 x, word 0x6#4 0#4 x] rest) ∧
    (v.toInt ≤ s.regs.calLow.toInt →
      DegenerateFoundBy s (word 0x2#4 1#4 v) { s.regs with calHigh := v }
        [word 0x4#4 0#4 x, word 0x6#4 0#4 x] rest) ∧
    (s.regs.expHigh.toInt ≤ v.toInt →
      DegenerateFoundBy s (word 0x2#4 2#4 v) { s.regs with expLow := v }
        [word 0x5#4 0#4 x, word 0x6#4 0#4 x, word 0x8#4 0#4 0#32, word 0x9#4 0#4 0#32] rest) ∧
    (v.toInt ≤ s.regs.expLow.toInt →
      DegenerateFoundBy s (word 0x2#4 3#4 v) { s.regs with expHigh := v }
        [word 0x5#4 0#4 x, word 0x6#4 0#4 x, word 0x8#4 0#4 0#32, word 0x9#4 0#4 0#32] rest)

/-! ### The fraction encoder -/

/-- R63 (with R60, R61, R62): with a valid calibrated range ENCODE completes for every sample with the clamped floor quotient in
`D0`, `D1` and `OVF` 0, no register changed; with a degenerate one it raises DomainError for every sample; a nonzero REG field is
rejected at decode. -/
def Obligations.EncodeAnswersClampedFloorQuotient : Prop :=
  (∀ (s : State) (v : Word), s.regs.calLow.toInt < s.regs.calHigh.toInt →
    exec (.encode v) s =
      .next (answer
        (okWord false 0#32 (BitVec.ofInt 32 (encoded v.toInt s.regs.calLow.toInt s.regs.calHigh.toInt))) s)) ∧
  (∀ (s : State) (v : Word), s.regs.calHigh.toInt ≤ s.regs.calLow.toInt →
    exec (.encode v) s = .next (answer (faultWord .domainError) s)) ∧
  (∀ v : Word, decode (word 0x4#4 0#4 v) = .ok (.encode v)) ∧
  (∀ (i : RegIndex) (v : Word), i ≠ 0#4 → Rejected (word 0x4#4 i v))

/-- R64 (c), (d): in a fixed state with a valid calibrated range, ENCODE's answer does not fall as the sample rises, and it is
at most 255. -/
def Obligations.EncodeIsMonotoneInTheSample : Prop :=
  ∀ (s : State) (v w : Word), s.regs.calLow.toInt < s.regs.calHigh.toInt → v.toInt ≤ w.toInt →
    ∃ a b : Word,
      exec (.encode v) s = .next (answer (okWord false 0#32 a) s) ∧
      exec (.encode w) s = .next (answer (okWord false 0#32 b) s) ∧
      a.toNat ≤ b.toNat ∧ b.toNat ≤ 255

/-- R62, R64 (a), (b): at or below the low bound ENCODE answers 0, at or above the high bound it answers 255. -/
def Obligations.EncodeClampsOutsideTheCalibratedRange : Prop :=
  ∀ (s : State) (v : Word), s.regs.calLow.toInt < s.regs.calHigh.toInt →
    (v.toInt ≤ s.regs.calLow.toInt → exec (.encode v) s = .next (answer (okWord false 0#32 0#32) s)) ∧
    (s.regs.calHigh.toInt ≤ v.toInt → exec (.encode v) s = .next (answer (okWord false 0#32 255#32) s))

/-- R64 (e): for a sample inside the calibrated range the answered coefficient `a` locates it: `a / 255` is at most the sample's
position in the range, and the position is below `(a + 1) / 255` (both sides multiplied by `255 * (hi - lo)`). -/
def Obligations.EncodeLocatesAnInRangeSample : Prop :=
  ∀ (s : State) (v : Word), s.regs.calLow.toInt < s.regs.calHigh.toInt →
    s.regs.calLow.toInt ≤ v.toInt → v.toInt ≤ s.regs.calHigh.toInt →
    ∃ a : Word,
      exec (.encode v) s = .next (answer (okWord false 0#32 a) s) ∧
      a.toInt * (s.regs.calHigh.toInt - s.regs.calLow.toInt) ≤ 255 * (v.toInt - s.regs.calLow.toInt) ∧
      255 * (v.toInt - s.regs.calLow.toInt) < (a.toInt + 1) * (s.regs.calHigh.toInt - s.regs.calLow.toInt)

/-! ### The interpolator -/

/-- R74 (with R66, R67, R69, R70, R72, R73): with a valid expected range INTERP completes for every operand with the blend in
`D0`, the wrapped correction in `D1` and its overflow in `OVF`, no register changed; with a degenerate one it raises DomainError
for every operand; a nonzero REG field is rejected at decode. -/
def Obligations.InterpAnswersBlendAndCorrection : Prop :=
  (∀ (s : State) (c : Word), s.regs.expLow.toInt < s.regs.expHigh.toInt →
    exec (.interp c) s = .next (answer (blendWord c.toInt s.regs.expLow.toInt s.regs.expHigh.toInt) s)) ∧
  (∀ (s : State) (c : Word), s.regs.expHigh.toInt ≤ s.regs.expLow.toInt →
    exec (.interp c) s = .next (answer (faultWord .domainError) s)) ∧
  (∀ c : Word, decode (word 0x5#4 0#4 c) = .ok (.interp c)) ∧
  (∀ (i : RegIndex) (c : Word), i ≠ 0#4 → Rejected (word 0x5#4 i c))

/-- R68: `D0` of INTERP lies in the expected range, is its low bound at a coefficient of 0 or less, its high bound at 255 or
more, and is below the high bound under 255. -/
def Obligations.InterpRawStaysInTheExpectedRange : Prop :=
  ∀ (s : State) (c : Word), s.regs.expLow.toInt < s.regs.expHigh.toInt →
    ∃ w : RspWord, exec (.interp c) s = .next (answer w s) ∧
      s.regs.expLow.toInt ≤ (rspD0 w).toInt ∧ (rspD0 w).toInt ≤ s.regs.expHigh.toInt ∧
      (c.toInt ≤ 0 → rspD0 w = s.regs.expLow) ∧
      (255 ≤ c.toInt → rspD0 w = s.regs.expHigh) ∧
      (c.toInt < 255 → (rspD0 w).toInt < s.regs.expHigh.toInt)

/-- R68, R76 (a): `D0` of INTERP does not fall as the coefficient rises, and neither does `D1`
while no correction overflows. -/
def Obligations.InterpIsMonotoneInTheCoefficient : Prop :=
  ∀ (s : State) (c d : Word), s.regs.expLow.toInt < s.regs.expHigh.toInt → c.toInt ≤ d.toInt →
    ∃ u w : RspWord,
      exec (.interp c) s = .next (answer u s) ∧ exec (.interp d) s = .next (answer w s) ∧
      (rspD0 u).toInt ≤ (rspD0 w).toInt ∧
      (rspOvf u = false → rspOvf w = false → (rspD1 u).toInt ≤ (rspD1 w).toInt)

/-- R70: INTERP sets `OVF` exactly when `D0` is above 2139127680 or below -2139127680; either way the status is OK, `D0` is the
exact blend and `D1` the wrapped correction of it. -/
def Obligations.OverflowFlagThresholds : Prop :=
  ∀ (s : State) (c : Word), s.regs.expLow.toInt < s.regs.expHigh.toInt →
    ∃ w : RspWord, exec (.interp c) s = .next (answer w s) ∧ rspSt w = 0b00#2 ∧
      (rspD0 w).toInt = rawValue c.toInt s.regs.expLow.toInt s.regs.expHigh.toInt ∧
      rspD1 w = BitVec.ofInt 32 (correctedValue (rspD0 w).toInt) ∧
      (rspOvf w = true ↔ 2139127680 < (rspD0 w).toInt ∨ (rspD0 w).toInt < -2139127680)

/-- R76 (c), its last clause with the condition `OVF` = 0 that the rule leaves unsaid (log entry 11): without overflow, `D1` is
at least `D0` for a `D0` of 0 or more, equal exactly up to 255, and below it for a negative `D0`. -/
def Obligations.CorrectionIsOrderedByTheSignOfRaw : Prop :=
  ∀ (s : State) (c : Word), s.regs.expLow.toInt < s.regs.expHigh.toInt →
    ∃ w : RspWord, exec (.interp c) s = .next (answer w s) ∧
      (rspOvf w = false →
        (0 ≤ (rspD0 w).toInt → (rspD0 w).toInt ≤ (rspD1 w).toInt ∧
          ((rspD1 w).toInt = (rspD0 w).toInt ↔ (rspD0 w).toInt ≤ 255)) ∧
        ((rspD0 w).toInt < 0 → (rspD1 w).toInt < (rspD0 w).toInt))

/-! ### MAP -/

/-- R75: with both ranges valid MAP completes for every sample with the blend at the sample's coefficient, no register changed;
with either range degenerate it raises DomainError; a nonzero REG field is rejected at decode. -/
def Obligations.MapEncodesThenBlends : Prop :=
  (∀ (s : State) (v : Word), s.regs.calLow.toInt < s.regs.calHigh.toInt → s.regs.expLow.toInt < s.regs.expHigh.toInt →
    exec (.map v) s =
      .next (answer (blendWord (encoded v.toInt s.regs.calLow.toInt s.regs.calHigh.toInt)
        s.regs.expLow.toInt s.regs.expHigh.toInt) s)) ∧
  (∀ (s : State) (v : Word),
    s.regs.calHigh.toInt ≤ s.regs.calLow.toInt ∨ s.regs.expHigh.toInt ≤ s.regs.expLow.toInt →
    exec (.map v) s = .next (answer (faultWord .domainError) s)) ∧
  (∀ v : Word, decode (word 0x6#4 0#4 v) = .ok (.map v)) ∧
  (∀ (i : RegIndex) (v : Word), i ≠ 0#4 → Rejected (word 0x6#4 i v))

/-- R75, corner cases: where neither faults, MAP's response is that of INTERP at the coefficient that ENCODE answers. -/
def Obligations.MapAnswersAsInterpOfEncode : Prop :=
  ∀ (s : State) (v a : Word), s.regs.expLow.toInt < s.regs.expHigh.toInt →
    exec (.encode v) s = .next (answer (okWord false 0#32 a) s) →
    exec (.map v) s = exec (.interp a) s

/-- R76 (a), (b): with both ranges fixed and valid, `D0` of MAP does not fall as the sample rises, is the expected range's low
bound at `CAL_LOW` and below, and its high bound at `CAL_HIGH` and above; `D1` does not fall either while no correction
overflows. -/
def Obligations.MapIsMonotoneWithExactEndpoints : Prop :=
  ∀ (s : State) (v w : Word), s.regs.calLow.toInt < s.regs.calHigh.toInt → s.regs.expLow.toInt < s.regs.expHigh.toInt →
    v.toInt ≤ w.toInt →
    ∃ p q : RspWord,
      exec (.map v) s = .next (answer p s) ∧ exec (.map w) s = .next (answer q s) ∧
      (rspD0 p).toInt ≤ (rspD0 q).toInt ∧
      (rspOvf p = false → rspOvf q = false → (rspD1 p).toInt ≤ (rspD1 q).toInt) ∧
      (v.toInt ≤ s.regs.calLow.toInt → rspD0 p = s.regs.expLow) ∧
      (s.regs.calHigh.toInt ≤ v.toInt → rspD0 p = s.regs.expHigh)

/-- R76 (d): for an in-range sample, `D0` of MAP never exceeds the exact mapped value `x0 + (s - lo) * span / den` and falls
short of it by less than `span / 255 + 1` (both inequalities multiplied by the denominators). -/
def Obligations.MapResidualErrorIsBounded : Prop :=
  ∀ (s : State) (v : Word), s.regs.calLow.toInt < s.regs.calHigh.toInt → s.regs.expLow.toInt < s.regs.expHigh.toInt →
    s.regs.calLow.toInt ≤ v.toInt → v.toInt ≤ s.regs.calHigh.toInt →
    ∃ w : RspWord, exec (.map v) s = .next (answer w s) ∧
      ((rspD0 w).toInt - s.regs.expLow.toInt) * (s.regs.calHigh.toInt - s.regs.calLow.toInt) ≤
        (v.toInt - s.regs.calLow.toInt) * (s.regs.expHigh.toInt - s.regs.expLow.toInt) ∧
      255 * ((v.toInt - s.regs.calLow.toInt) * (s.regs.expHigh.toInt - s.regs.expLow.toInt) -
          ((rspD0 w).toInt - s.regs.expLow.toInt) * (s.regs.calHigh.toInt - s.regs.calLow.toInt)) <
        ((s.regs.expHigh.toInt - s.regs.expLow.toInt) + 255) * (s.regs.calHigh.toInt - s.regs.calLow.toInt)

/-! ### The lane -/

/-- R79 (with R77, R78): with a valid expected range PEEK completes with the blend at the whole signed accumulator, no register
changed; with a degenerate one it raises DomainError; its one word is 0x8000000000, and a nonzero REG or DATA is rejected. -/
def Obligations.PeekAnswersTheLaneValue : Prop :=
  (∀ s : State, s.regs.expLow.toInt < s.regs.expHigh.toInt →
    exec .peek s =
      .next (answer (blendWord s.regs.accum.toInt s.regs.expLow.toInt s.regs.expHigh.toInt) s)) ∧
  (∀ s : State, s.regs.expHigh.toInt ≤ s.regs.expLow.toInt →
    exec .peek s = .next (answer (faultWord .domainError) s)) ∧
  decode 0x8000000000#40 = .ok .peek ∧
  (∀ (i : RegIndex) (d : Word), i ≠ 0#4 ∨ d ≠ 0#32 → Rejected (word 0x8#4 i d))

/-- R80: with a valid expected range POP completes with the blend at the accumulator from before the increment and leaves
`ACCUM` at the wrapped sum of `ACCUM` and `STEP`, no other register changed, whatever `OVF` is; with a degenerate one it raises
DomainError and advances nothing; its one word is 0x9000000000, and a nonzero REG or DATA is rejected. -/
def Obligations.PopAnswersTheLaneValueThenAdvances : Prop :=
  (∀ s : State, s.regs.expLow.toInt < s.regs.expHigh.toInt →
    exec .pop s =
      .next (answer (blendWord s.regs.accum.toInt s.regs.expLow.toInt s.regs.expHigh.toInt)
        { s with regs := { s.regs with
            accum := BitVec.ofInt 32 (s.regs.accum.toInt + s.regs.step.toInt) } })) ∧
  (∀ s : State, s.regs.expHigh.toInt ≤ s.regs.expLow.toInt →
    exec .pop s = .next (answer (faultWord .domainError) s)) ∧
  decode 0x9000000000#40 = .ok .pop ∧
  (∀ (i : RegIndex) (d : Word), i ≠ 0#4 ∨ d ≠ 0#32 → Rejected (word 0x9#4 i d))

/-- R82: PEEK answers as INTERP of the accumulator's value, and POP answers as PEEK in the same state and leaves the registers
that PEEK followed by `WR ACCUM, wrap32(ACCUM + STEP)` leaves. -/
def Obligations.LaneReadsAgreeWithInterp : Prop :=
  ∀ s : State, s.regs.expLow.toInt < s.regs.expHigh.toInt →
    exec .peek s = exec (.interp s.regs.accum) s ∧
    ∃ (w : RspWord) (t u : State),
      exec .peek s = .next (answer w s) ∧
      exec .pop s = .next t ∧ t.responses = s.responses ++ [w] ∧
      exec (.wr 4#4 (s.regs.accum + s.regs.step)) (answer w s) = .next u ∧
      t.regs = u.regs

/-- R81: `n` POPs presented with no other move between, a valid expected range: the `j`-th answers the blend at
`wrap32(A0 + j * S)`, and afterwards `ACCUM` is `wrap32(A0 + n * S)`, every other register unchanged. -/
def Obligations.RunOfPopsSweepsTheAccumulator : Prop :=
  ∀ (n : Nat) (s : State) (rest : List HostMove), s.regs.expLow.toInt < s.regs.expHigh.toInt →
    Host.Core.run Sys2Proof.core n
        { s with script := List.replicate n (.command 0x9000000000#40) ++ rest } =
      .next { regs := { s.regs with accum := BitVec.ofInt 32 (s.regs.accum.toInt + (n : Int) * s.regs.step.toInt) },
              script := rest,
              responses := s.responses ++ (List.range n).map fun (j : Nat) =>
                blendWord (BitVec.ofInt 32 (s.regs.accum.toInt + (j : Int) * s.regs.step.toInt)).toInt
                  s.regs.expLow.toInt s.regs.expHigh.toInt }

/-! ### Faults -/

/-- R84: for each command, exactly when it raises DomainError (RD and WR never do, for any index). The condition is on registers
alone. -/
def Obligations.DomainErrorExactlyOnDegenerateRanges : Prop :=
  ∀ (s : State) (i : RegIndex) (v : Word),
    exec (.rd i) s ≠ .next (answer (faultWord .domainError) s) ∧
    (∀ r : Regs, exec (.wr i v) s ≠ .next (answer (faultWord .domainError) { s with regs := r })) ∧
    (exec (.encode v) s = .next (answer (faultWord .domainError) s) ↔ s.regs.calHigh.toInt ≤ s.regs.calLow.toInt) ∧
    (exec (.interp v) s = .next (answer (faultWord .domainError) s) ↔ s.regs.expHigh.toInt ≤ s.regs.expLow.toInt) ∧
    (exec (.map v) s = .next (answer (faultWord .domainError) s) ↔
      s.regs.calHigh.toInt ≤ s.regs.calLow.toInt ∨ s.regs.expHigh.toInt ≤ s.regs.expLow.toInt) ∧
    (exec .peek s = .next (answer (faultWord .domainError) s) ↔ s.regs.expHigh.toInt ≤ s.regs.expLow.toInt) ∧
    (exec .pop s = .next (answer (faultWord .domainError) s) ↔ s.regs.expHigh.toInt ≤ s.regs.expLow.toInt)

/-- R9, R89: every command, in every state, ends in a next state with exactly one response word more; where that word reports a
fault no register has changed, and OVF, D1 and D0 are 0. -/
def Obligations.FaultResponseChangesNoRegister : Prop :=
  ∀ (i : Instr) (s : State), ∃ (w : RspWord) (r : Regs),
    exec i s = .next { s with regs := r, responses := s.responses ++ [w] } ∧
    (rspSt w ≠ 0b00#2 → r = s.regs ∧ rspOvf w = false ∧ rspD1 w = 0#32 ∧ rspD0 w = 0#32)

/-- R50, R86: the words the decoder rejects are exactly those of cases (a) to (e), and each of them, presented in any state, is
answered with the IllegalCommand word and changes no register, whatever the ranges (R88). -/
def Obligations.IllegalWordsAreRejectedAndAnswered : Prop :=
  ∀ w : CmdWord,
    (Rejected w ↔
      (cmdOp w ∈ [0x0#4, 0x3#4, 0x7#4, 0xA#4, 0xB#4, 0xC#4, 0xD#4, 0xE#4, 0xF#4]) ∨
      (cmdOp w ∈ [0x1#4, 0x2#4] ∧ 6 ≤ (cmdReg w).toNat) ∨
      (cmdOp w = 0x1#4 ∧ cmdData w ≠ 0#32) ∨
      (cmdOp w ∈ [0x4#4, 0x5#4, 0x6#4] ∧ cmdReg w ≠ 0#4) ∨
      (cmdOp w ∈ [0x8#4, 0x9#4] ∧ (cmdReg w ≠ 0#4 ∨ cmdData w ≠ 0#32))) ∧
    (Rejected w → ∀ s : State, runCommand w s = .next (answer (faultWord .illegalCommand) s))

/-- R22, R90 (and R12): what a command answers and does to the registers depends on the registers and the word alone: not on
the responses before it, a fault among them or not, and not on what the host will do next. -/
def Obligations.PastResponsesDoNotMatter : Prop :=
  ∀ (w : CmdWord) (r : Regs), ∃ (rsp : RspWord) (r' : Regs),
    ∀ (past : List RspWord) (rest : List HostMove),
      step { regs := r, script := .command w :: rest, responses := past } =
        .next { regs := r', script := rest, responses := past ++ [rsp] }

/-! ### Encoding -/

/-- R46: decoding the word of a well-formed command gives the command back, every operand with it. -/
def Obligations.DecodeOfEncode : Prop :=
  ∀ i : Instr, i.wellFormed = true → decode (encode i) = .ok i

/-- R46: a word that decodes to a command is that command's word, and the command is well formed. -/
def Obligations.EncodeOfDecode : Prop :=
  ∀ (w : CmdWord) (i : Instr), decode w = .ok i → encode i = w ∧ i.wellFormed = true

/-- R55: a word is legal exactly when a row of the opcode table admits it, that is, it is a candidate for the row and meets the
row's constraint; and it then decodes to a command of that row. -/
def Obligations.LegalExactlyWhenARowAdmits : Prop :=
  ∀ (w : CmdWord) (r : OpcodeRow), r ∈ opcodeTable →
    (r.admits w = true ↔ ∃ i, decode w = .ok i ∧ rowOf i = r)

/-- R55: no word is a candidate for two rows. -/
def Obligations.NoWordIsCandidateForTwoRows : Prop :=
  ∀ w : CmdWord, (opcodeTable.filter fun r => r.candidate w).length ≤ 1

/-- R46: the number of legal words is `9 * 2^32 + 8`. -/
def Obligations.NumberOfLegalWords : Prop :=
  Set.ncard { w : CmdWord | ∃ i, decode w = .ok i } = 9 * 2 ^ 32 + 8

/-- Words of spec/95_test_vectors.md V14 and V15 decode to the commands they are listed with. -/
def Obligations.ListedWordsDecodeAsListed : Prop :=
  decode 0x1500000000#40 = .ok (.rd 5#4) ∧
  decode 0x21FFFFFFFF#40 = .ok (.wr 1#4 (BitVec.ofInt 32 (-1))) ∧
  decode 0x40000005DC#40 = .ok (.encode 1500#32) ∧
  decode 0x5000000050#40 = .ok (.interp 80#32) ∧
  decode 0x60000005DC#40 = .ok (.map 1500#32) ∧
  decode 0x8000000000#40 = .ok .peek ∧
  decode 0x9000000000#40 = .ok .pop

/-- R47, R48: the places of the fields in a response word, read by the model's field functions and as a number. -/
def Obligations.ResponseWordLayout : Prop :=
  (∀ (ovf : Bool) (st : Status) (d1 d0 : Word),
    rspOvf (rspWord ovf st d1 d0) = ovf ∧ rspSt (rspWord ovf st d1 d0) = st.code ∧
    rspD1 (rspWord ovf st d1 d0) = d1 ∧ rspD0 (rspWord ovf st d1 d0) = d0 ∧
    (rspWord ovf st d1 d0).toNat = ovf.toNat * 2 ^ 66 + st.code.toNat * 2 ^ 64 + d1.toNat * 2 ^ 32 + d0.toNat) ∧
  (∀ (ovf : Bool) (d1 d0 : Word), okWord ovf d1 d0 = rspWord ovf .ok d1 d0) ∧
  Status.code .ok = 0b00#2 ∧ Status.code .domainError = 0b01#2 ∧ Status.code .illegalCommand = 0b10#2 ∧
  faultWord .domainError = 0x10000000000000000#67 ∧ faultWord .illegalCommand = 0x20000000000000000#67

/-! ### Steps, reset and runs -/

/-- R39: where the host's next move presents a word that decodes to a command, the step is that command on the state with the
move taken up (the script is the model's view of the host, log entry 1). -/
def Obligations.StepRunsTheDecodedCommand : Prop :=
  ∀ (s : State) (w : CmdWord) (i : Instr) (rest : List HostMove),
    s.script = .command w :: rest → decode w = .ok i → step s = exec i { s with script := rest }

/-- A well-formed command's word, placed as the host's next move by `withFetchWord`, is read back as that command and runs as
the very next step, as it would have run before (log entry 7). -/
def Obligations.PlacedWordRunsNext : Prop :=
  ∀ (s : State) (i : Instr), i.wellFormed = true →
    decodeTableWord 40 (encode i).toNat = some i ∧ step (s.withFetchWord 40 (encode i).toNat) = exec i s

/-- R97, R98: applying reset leaves all six registers 0, answers nothing and keeps the responses already received; a command cut
off by reset does the same (log entries 1, 5 and 6 for how the moves stand in the model). -/
def Obligations.ResetMovesZeroTheRegisters : Prop :=
  ∀ (s : State) (m : HostMove) (rest : List HostMove),
    s.script = m :: rest → (m = .reset ∨ ∃ w, m = .commandCutByReset w) →
    step s = .next
      { regs := { calLow := 0#32, calHigh := 0#32, expLow := 0#32, expHigh := 0#32, accum := 0#32, step := 0#32 },
        script := rest, responses := s.responses }

/-- R27: after reset every register holds 0. -/
def Obligations.ResetStateHoldsZeroInEveryRegister : Prop :=
  State.reset.regs = { calLow := 0#32, calHigh := 0#32, expLow := 0#32, expHigh := 0#32, accum := 0#32, step := 0#32 }

/-- The model's choice (log entry 3): a step in which the host makes no move changes nothing, as the block never acts except in
answer to a command or to reset (R11). -/
def Obligations.IdleStepChangesNothing : Prop :=
  ∀ s : State, s.script = [] → step s = .next s

/-- R99 (which the spec derives from R27 and R84): right after reset, before any WR, RD of every register answers 0, WR works,
each computing command raises DomainError for every operand and moves no register, and an illegal word raises IllegalCommand. -/
def Obligations.BehaviourRightAfterReset : Prop :=
  (∀ w : CmdWord, Rejected w → runCommand w State.reset = .next (answer (faultWord .illegalCommand) State.reset)) ∧
  ∀ (i : RegIndex) (v : Word),
    (i.toNat ≤ 5 → exec (.rd i) State.reset = .next (answer (okWord false 0#32 0#32) State.reset)) ∧
    (i.toNat ≤ 5 → ∃ r : Regs, readReg r i = some v ∧
      exec (.wr i v) State.reset = .next (answer (okWord false 0#32 0#32) { State.reset with regs := r })) ∧
    exec (.encode v) State.reset = .next (answer (faultWord .domainError) State.reset) ∧
    exec (.interp v) State.reset = .next (answer (faultWord .domainError) State.reset) ∧
    exec (.map v) State.reset = .next (answer (faultWord .domainError) State.reset) ∧
    exec .peek State.reset = .next (answer (faultWord .domainError) State.reset) ∧
    exec .pop State.reset = .next (answer (faultWord .domainError) State.reset)

/-- R97 and the table of R19: a step after which the registers differ performed a reset, a WR or a POP. -/
def Obligations.RegistersChangeOnlyByWrPopOrReset : Prop :=
  ∀ s t : State, step s = .next t → t.regs ≠ s.regs →
    ∃ (m : HostMove) (rest : List HostMove), s.script = m :: rest ∧
      (m = .reset ∨ (∃ w, m = .commandCutByReset w) ∨
        (∃ w reg v, m = .command w ∧ decode w = .ok (.wr reg v)) ∨ (∃ w, m = .command w ∧ decode w = .ok .pop))

/-- R19, the frame of every command: RD, ENCODE, INTERP, MAP and PEEK leave every register as it was, WR every register but the
one its index names, POP every register but `ACCUM`; no command touches what the host will do next or a response already
given. -/
def Obligations.EachCommandWritesOnlyItsRegisters : Prop :=
  ∀ (i : Instr) (s t : State), exec i s = .next t →
    t.script = s.script ∧ s.responses <+: t.responses ∧ KeepsOtherRegs i s.regs t.regs

/-- R19, the reads of every command: two states that agree on the registers a command reads get the same response word. -/
def Obligations.EachCommandReadsOnlyItsRegisters : Prop :=
  ∀ (i : Instr) (s t : State), AgreeOnReads i s.regs t.regs →
    ∃ (w : RspWord) (s' t' : State), exec i s = .next s' ∧ exec i t = .next t' ∧
      s'.responses = s.responses ++ [w] ∧ t'.responses = t.responses ++ [w]

/-- R33: each command but POP, issued twice in a row, answers the second time as the first and leaves the registers as once; POP
with a valid expected range and a nonzero `STEP` leaves them otherwise. -/
def Obligations.OnlyPopIsNotIdempotent : Prop :=
  (∀ (i : Instr) (s : State), i ≠ .pop →
    ∃ (w : RspWord) (r : Regs),
      exec i s = .next { s with regs := r, responses := s.responses ++ [w] } ∧
      exec i { s with regs := r, responses := s.responses ++ [w] } =
        .next { s with regs := r, responses := s.responses ++ [w] ++ [w] }) ∧
  (∀ s : State, s.regs.expLow.toInt < s.regs.expHigh.toInt → s.regs.step ≠ 0#32 →
    ∃ t u : State, exec .pop s = .next t ∧ exec .pop t = .next u ∧ u.regs ≠ t.regs)

/-- R39, R106: every step, in every state, ends in a next state; when the host's next move presents a word, legal or not, exactly
one response word more has then been received. -/
def Obligations.EveryCommandCompletesWithOneResponse : Prop :=
  ∀ s : State, ∃ t : State, step s = .next t ∧
    ∀ (w : CmdWord) (rest : List HostMove), s.script = .command w :: rest →
      t.script = rest ∧ ∃ rsp : RspWord, t.responses = s.responses ++ [rsp]

/-- R107: a run of any finite sequence of moves, from any state, ends: after as many steps as there are moves the host has
nothing left to do and has received one response for every command that reset did not cut off. -/
def Obligations.FiniteRunCompletes : Prop :=
  ∀ s : State, ∃ t : State,
    Host.Core.run Sys2Proof.core s.script.length s = .next t ∧ t.script = [] ∧
    t.responses.length = s.responses.length + answersDue s.script

/-- R47, R48, R49 over all steps: from every state whose responses so far are words the block can answer with (a fault word
with nothing but its status, or an OK word whose `D1` and `OVF` are 0 or are the correction of its `D0` and that correction's
overflow), every step leads to such a state; the status 0b11 is never answered. -/
def Obligations.StepKeepsResponsesLegal : Prop :=
  ∀ s t : State, ResponsesLegal s → step s = .next t → ResponsesLegal t ∧ ∀ w ∈ t.responses, rspSt w ≠ 0b11#2

/-- The invariant of `StepKeepsResponsesLegal` holds at reset. -/
def Obligations.ResetResponsesAreLegal : Prop :=
  ResponsesLegal State.reset

/-! ### The assembler -/

/-- R53: the assembler never emits an illegal word: every command of an assembled text has a word that decodes to it. -/
def Obligations.AssemblerEmitsOnlyLegalWords : Prop :=
  ∀ (source : Text) (program : List Instr), assemble source = some program →
    ∀ i ∈ program, decode (encode i) = .ok i

/-- R54: the expansions of SETCAL, SETEXP and SETLANE, presented to the block, set the two registers each names and leave the
other four, with one OK response for each expanded command. -/
def Obligations.PseudoInstructionsSetTheirRegisters : Prop :=
  ∀ (s : State) (a b : Word) (rest : List HostMove),
    Host.Core.run Sys2Proof.core 2 { s with script := present (setCal a b) ++ rest } =
      .next { regs := { s.regs with calLow := a, calHigh := b }, script := rest,
              responses := s.responses ++ [okWord false 0#32 0#32, okWord false 0#32 0#32] } ∧
    Host.Core.run Sys2Proof.core 2 { s with script := present (setExp a b) ++ rest } =
      .next { regs := { s.regs with expLow := a, expHigh := b }, script := rest,
              responses := s.responses ++ [okWord false 0#32 0#32, okWord false 0#32 0#32] } ∧
    Host.Core.run Sys2Proof.core 2 { s with script := present (setLane a b) ++ rest } =
      .next { regs := { s.regs with accum := a, step := b }, script := rest,
              responses := s.responses ++ [okWord false 0#32 0#32, okWord false 0#32 0#32] }
end

