-- ==== Sys2Proof/Laws/Arith.lean ====
section
/-! SUPPORT. What the arithmetic primitives of spec/00_scope.md R6 and R7 do. -/

namespace Sys2Proof.Machine

theorem sval_bounds (u : Word) : -2147483648 ≤ sval u ∧ sval u ≤ 2147483647 := by
  have h1 := BitVec.le_toInt u
  have h2 := BitVec.toInt_lt (x := u)
  simp only [sval]
  norm_num at h1 h2
  omega

@[simp] theorem bits32_sval (u : Word) : bits32 (sval u) = u := BitVec.ofInt_toInt

theorem sval_bits32_eq_bmod (v : Int) : sval (bits32 v) = v.bmod 4294967296 := by
  simp [sval, bits32, BitVec.toInt_ofInt]

theorem fits32_iff (v : Int) : fits32 v = true ↔ -2147483648 ≤ v ∧ v ≤ 2147483647 := by
  simp [fits32]

/-- A member of `S32` survives the trip through its 32 bits. -/
theorem sval_bits32 {v : Int} (h : -2147483648 ≤ v ∧ v ≤ 2147483647) : sval (bits32 v) = v := by
  rw [sval_bits32_eq_bmod, Int.bmod_def]
  split <;> omega

@[simp] theorem bits32_wrap32 (v : Int) : bits32 (wrap32 v) = bits32 v := bits32_sval _

theorem wrap32_of_fits {v : Int} (h : fits32 v = true) : wrap32 v = v := sval_bits32 ((fits32_iff v).1 h)

theorem fits32_wrap32 (v : Int) : fits32 (wrap32 v) = true := (fits32_iff _).2 (sval_bounds _)

theorem floorDiv_eq_fdiv {n d : Int} (h : 0 ≤ d) : floorDiv n d = Int.fdiv n d :=
  (Int.fdiv_eq_ediv_of_nonneg n h).symm

/-- The defining property of R7: the greatest integer whose product with the divisor does not exceed the dividend. -/
theorem floorDiv_spec {n d : Int} (h : 0 < d) : floorDiv n d * d ≤ n ∧ n < (floorDiv n d + 1) * d :=
  ⟨Int.ediv_mul_le n h.ne', Int.lt_ediv_add_one_mul_self n h⟩

theorem le_floorDiv_iff {q n d : Int} (h : 0 < d) : q ≤ floorDiv n d ↔ q * d ≤ n := Int.le_ediv_iff_mul_le h

theorem floorDiv_mono {m n d : Int} (h : 0 < d) (hmn : m ≤ n) : floorDiv m d ≤ floorDiv n d :=
  Int.ediv_le_ediv h hmn

theorem clamp_eq_max_min {v lo hi : Int} (h : lo ≤ hi) : clamp v lo hi = max lo (min hi v) := by
  unfold clamp; split_ifs <;> omega

theorem clamp_bounds {v lo hi : Int} (h : lo ≤ hi) : lo ≤ clamp v lo hi ∧ clamp v lo hi ≤ hi := by
  unfold clamp; split_ifs <;> omega

theorem clamp_mono {u v lo hi : Int} (h : lo ≤ hi) (huv : u ≤ v) : clamp u lo hi ≤ clamp v lo hi := by
  unfold clamp; split_ifs <;> omega

theorem coefficient_eq (c : Int) : coefficient c = max 0 (min 255 c) := clamp_eq_max_min (by decide)

theorem coefficient_bounds (c : Int) : 0 ≤ coefficient c ∧ coefficient c ≤ 255 := clamp_bounds (by decide)

theorem coefficient_mono {c d : Int} (h : c ≤ d) : coefficient c ≤ coefficient d := clamp_mono (by decide) h

theorem coefficient_of_mem {c : Int} (h : 0 ≤ c ∧ c ≤ 255) : coefficient c = c := by
  rw [coefficient_eq]; omega

theorem correctedExact_eq (raw : Int) : correctedExact raw = raw + raw / 256 := by
  simp [correctedExact, asr, floorDiv, Config.fractionBits]

theorem correctionOverflows_iff (raw : Int) :
    correctionOverflows raw = true ↔ correctedExact raw < -2147483648 ∨ 2147483647 < correctedExact raw := by
  simp only [correctionOverflows, fits32, Bool.not_eq_true', decide_eq_false_iff_not]
  omega

end Sys2Proof.Machine
end

