-- ==== Sys2Proof/Laws/Decode.lean ====
section
/-! SUPPORT. The fields of a command word, and what the decoder's case split answers. -/

namespace Sys2Proof

@[simp] theorem cmdData_mkCmd (op : BitVec 4) (reg : RegIndex) (data : Word) : cmdData (mkCmd op reg data) = data := by
  apply BitVec.eq_of_getLsbD_eq
  intro i hi
  simp only [cmdData, mkCmd, BitVec.getLsbD_extractLsb', BitVec.getLsbD_append]
  simp [hi]

@[simp] theorem cmdReg_mkCmd (op : BitVec 4) (reg : RegIndex) (data : Word) : cmdReg (mkCmd op reg data) = reg := by
  apply BitVec.eq_of_getLsbD_eq
  intro i hi
  simp only [cmdReg, mkCmd, BitVec.getLsbD_extractLsb', BitVec.getLsbD_append]
  simp [hi]

@[simp] theorem cmdOp_mkCmd (op : BitVec 4) (reg : RegIndex) (data : Word) : cmdOp (mkCmd op reg data) = op := by
  apply BitVec.eq_of_getLsbD_eq
  intro i hi
  simp only [cmdOp, mkCmd, BitVec.getLsbD_extractLsb', BitVec.getLsbD_append]
  have h1 : ¬ (36 + i < 32) := by omega
  have h2 : ¬ (36 + i - 32 < 4) := by omega
  have h3 : 36 + i - 32 - 4 = i := by omega
  simp [hi, h1, h2, h3]

/-- A command word is its three fields put together. -/
theorem mkCmd_fields (w : CmdWord) : mkCmd (cmdOp w) (cmdReg w) (cmdData w) = w := by
  apply BitVec.eq_of_getLsbD_eq
  intro i hi
  simp only [cmdOp, cmdReg, cmdData, mkCmd, BitVec.getLsbD_extractLsb', BitVec.getLsbD_append]
  by_cases h1 : i < 32
  · simp [h1]
  · by_cases h2 : i < 36
    · have h3 : i - 32 < 4 := by omega
      have h4 : 32 + (i - 32) = i := by omega
      simp [h1, h3, h4]
    · have h3 : ¬ (i - 32 < 4) := by omega
      have h4 : 36 + (i - 32 - 4) = i := by omega
      have h5 : i - 32 - 4 < 4 := by omega
      simp [h1, h3, h4, h5]

/-- Decoding a word put together from fields is the case split on those fields. -/
theorem decode_mkCmd (op : BitVec 4) (reg : RegIndex) (data : Word) :
    decode (mkCmd op reg data) = decodeFields op reg data := by
  simp [decode]

@[simp] theorem regNamed_iff (i : RegIndex) : regNamed i = true ↔ i.toNat ≤ 5 := by
  rw [regNamed, decide_eq_true_iff, Config.nReg]
  omega

end Sys2Proof
end

