-- ==== Sys2Proof/Laws/Assembler.lean ====
section
/-! SUPPORT. What the assembler's name table and expansions give (spec/30_encoding.md R53, R54). -/

namespace Sys2Proof.Machine

/-- A pair found by its key stands in the list. -/
theorem mem_of_lookup_eq_some {α β : Type} [BEq α] {l : List (α × β)} {a : α} {b : β} (h : l.lookup a = some b) :
    ∃ a', (a', b) ∈ l := by
  induction l with
  | nil => cases h
  | cons x xs ih =>
    rw [List.lookup_cons] at h
    split at h
    · cases h
      exact ⟨x.1, List.mem_cons_self⟩
    · obtain ⟨a', ha⟩ := ih h
      exact ⟨a', List.mem_cons_of_mem _ ha⟩

/-- Every register name stands for a named index. -/
theorem readRegName_named {t : Text} {i : RegIndex} (h : readRegName t = some i) : regNamed i = true := by
  obtain ⟨a, ha⟩ := mem_of_lookup_eq_some h
  have hall : ∀ p ∈ regNames, regNamed p.2 = true := by decide
  exact hall _ ha

theorem setCal_wellFormed (lo hi : Word) : ∀ i ∈ setCal lo hi, i.wellFormed = true := by
  simp [setCal, Instr.wellFormed]

theorem setExp_wellFormed (lo hi : Word) : ∀ i ∈ setExp lo hi, i.wellFormed = true := by
  simp [setExp, Instr.wellFormed]

theorem setLane_wellFormed (acc stp : Word) : ∀ i ∈ setLane acc stp, i.wellFormed = true := by
  simp [setLane, Instr.wellFormed]

end Sys2Proof.Machine
end

