-- ==== Sys2Proof/Laws/Operands.lean ====
section
/-! SUPPORT. What reading and writing a register by its index do (spec/20_memory.md R34). -/

namespace Sys2Proof.Machine

/-- The six named indices. -/
theorem named_cases {i : RegIndex} (h : i.toNat ≤ 5) :
    i = 0#4 ∨ i = 1#4 ∨ i = 2#4 ∨ i = 3#4 ∨ i = 4#4 ∨ i = 5#4 := by
  revert i; decide

theorem readReg_reserved (r : Regs) {i : RegIndex} (h : 5 < i.toNat) : readReg r i = none := by
  have : ∀ i : RegIndex, 5 < i.toNat → i ≠ 0#4 ∧ i ≠ 1#4 ∧ i ≠ 2#4 ∧ i ≠ 3#4 ∧ i ≠ 4#4 ∧ i ≠ 5#4 := by decide
  obtain ⟨h0, h1, h2, h3, h4, h5⟩ := this i h
  simp [readReg, h0, h1, h2, h3, h4, h5]

theorem writeReg_reserved (r : Regs) {i : RegIndex} (v : Word) (h : 5 < i.toNat) : writeReg r i v = none := by
  have : ∀ i : RegIndex, 5 < i.toNat → i ≠ 0#4 ∧ i ≠ 1#4 ∧ i ≠ 2#4 ∧ i ≠ 3#4 ∧ i ≠ 4#4 ∧ i ≠ 5#4 := by decide
  obtain ⟨h0, h1, h2, h3, h4, h5⟩ := this i h
  simp [writeReg, h0, h1, h2, h3, h4, h5]

/-- A named index reads some register. -/
theorem readReg_named (r : Regs) {i : RegIndex} (h : i.toNat ≤ 5) : ∃ v, readReg r i = some v := by
  rcases named_cases h with rfl | rfl | rfl | rfl | rfl | rfl <;> exact ⟨_, rfl⟩

/-- Writing a named index succeeds; it then reads as the value written, and every other index reads as before. -/
theorem writeReg_named (r : Regs) {i : RegIndex} (v : Word) (h : i.toNat ≤ 5) :
    ∃ r', writeReg r i v = some r' ∧ readReg r' i = some v ∧ ∀ j, j ≠ i → readReg r' j = readReg r j := by
  rcases named_cases h with rfl | rfl | rfl | rfl | rfl | rfl <;>
    exact ⟨_, rfl, rfl, fun j hj => by simp [readReg, hj]⟩

/-- A successful write of the same value again changes nothing more. -/
theorem writeReg_twice {r r' : Regs} {i : RegIndex} {v : Word} (h : writeReg r i v = some r') :
    writeReg r' i v = some r' := by
  by_cases hi : i.toNat ≤ 5
  · rcases named_cases hi with rfl | rfl | rfl | rfl | rfl | rfl <;>
      (injection h with h; subst h; rfl)
  · rw [writeReg_reserved r v (by omega)] at h
    cases h

end Sys2Proof.Machine
end

