-- ==== Sys2Proof/Laws/State.lean ====
section
/-! SUPPORT. One lemma per field per update of the state, and what a response word's fields are. -/

namespace Sys2Proof.Machine

@[simp] theorem answer_regs (w : RspWord) (s : State) : (answer w s).regs = s.regs := rfl
@[simp] theorem answer_script (w : RspWord) (s : State) : (answer w s).script = s.script := rfl
@[simp] theorem answer_responses (w : RspWord) (s : State) : (answer w s).responses = s.responses ++ [w] := rfl

@[simp] theorem setRegs_regs (r : Regs) (s : State) : (setRegs r s).regs = r := rfl
@[simp] theorem setRegs_script (r : Regs) (s : State) : (setRegs r s).script = s.script := rfl
@[simp] theorem setRegs_responses (r : Regs) (s : State) : (setRegs r s).responses = s.responses := rfl
@[simp] theorem setRegs_self (s : State) : setRegs s.regs s = s := rfl

@[simp] theorem setScript_regs (m : List HostMove) (s : State) : (setScript m s).regs = s.regs := rfl
@[simp] theorem setScript_script (m : List HostMove) (s : State) : (setScript m s).script = m := rfl
@[simp] theorem setScript_responses (m : List HostMove) (s : State) : (setScript m s).responses = s.responses := rfl

@[simp] theorem applyReset_regs (s : State) : (applyReset s).regs = Regs.reset := rfl
@[simp] theorem applyReset_script (s : State) : (applyReset s).script = s.script := rfl
@[simp] theorem applyReset_responses (s : State) : (applyReset s).responses = s.responses := rfl

@[simp] theorem withFetchWord_regs (s : State) (n w : Nat) : (s.withFetchWord n w).regs = s.regs := rfl
@[simp] theorem withFetchWord_script (s : State) (n w : Nat) :
    (s.withFetchWord n w).script = .command (tableWord n w) :: s.script := rfl
@[simp] theorem withFetchWord_responses (s : State) (n w : Nat) : (s.withFetchWord n w).responses = s.responses := rfl

@[simp] theorem advanceAccum_calLow (r : Regs) : (advanceAccum r).calLow = r.calLow := rfl
@[simp] theorem advanceAccum_calHigh (r : Regs) : (advanceAccum r).calHigh = r.calHigh := rfl
@[simp] theorem advanceAccum_expLow (r : Regs) : (advanceAccum r).expLow = r.expLow := rfl
@[simp] theorem advanceAccum_expHigh (r : Regs) : (advanceAccum r).expHigh = r.expHigh := rfl
@[simp] theorem advanceAccum_step (r : Regs) : (advanceAccum r).step = r.step := rfl

/-- The wrapped sum of R80 is the sum of the two words. -/
@[simp] theorem advanceAccum_accum (r : Regs) : (advanceAccum r).accum = r.accum + r.step := by
  simp only [advanceAccum, bits32_wrap32]
  simp only [bits32, sval, BitVec.ofInt_add, BitVec.ofInt_toInt]

/-! ### Response words -/

@[simp] theorem rspD0_rspWord (ovf : Bool) (st : Status) (d1 d0 : Word) : rspD0 (rspWord ovf st d1 d0) = d0 := by
  apply BitVec.eq_of_getLsbD_eq
  intro i hi
  simp only [rspD0, rspWord, BitVec.getLsbD_extractLsb', BitVec.getLsbD_append]
  simp [hi]

@[simp] theorem rspD1_rspWord (ovf : Bool) (st : Status) (d1 d0 : Word) : rspD1 (rspWord ovf st d1 d0) = d1 := by
  apply BitVec.eq_of_getLsbD_eq
  intro i hi
  simp only [rspD1, rspWord, BitVec.getLsbD_extractLsb', BitVec.getLsbD_append]
  simp [hi]

@[simp] theorem rspSt_rspWord (ovf : Bool) (st : Status) (d1 d0 : Word) : rspSt (rspWord ovf st d1 d0) = st.code := by
  apply BitVec.eq_of_getLsbD_eq
  intro i hi
  simp only [rspSt, rspWord, BitVec.getLsbD_extractLsb', BitVec.getLsbD_append]
  have h1 : ¬ (64 + i < 32) := by omega
  have h2 : ¬ (64 + i - 32 < 32) := by omega
  have h3 : 64 + i - 32 - 32 = i := by omega
  simp [hi, h1, h2, h3]

@[simp] theorem rspOvf_rspWord (ovf : Bool) (st : Status) (d1 d0 : Word) : rspOvf (rspWord ovf st d1 d0) = ovf := by
  simp only [rspOvf, rspWord, BitVec.getLsbD_append]
  simp

end Sys2Proof.Machine
end

