-- ==== Sys2Proof/Laws/Exec.lean ====
section
/-! SUPPORT. What each shared operation of the meanings answers, and once for all what a command can do. -/

namespace Sys2Proof.Machine

/-- A success response adds its word to the responses and changes nothing else. -/
theorem respond_eq (ovf : Bool) (d1 d0 : Word) (s : State) :
    respond ovf d1 d0 s = .next { s with responses := s.responses ++ [okWord ovf d1 d0] } := rfl

/-- Taking a fault adds its word to the responses and changes nothing else. -/
theorem raise_eq (k : FaultKind) (s : State) :
    raise k s = .next { s with responses := s.responses ++ [faultWord k] } := rfl

theorem encodeCore_valid {s lo hi : Int} (h : lo < hi) :
    encodeCore s lo hi = .ok (coefficient (encodeQuotient s lo hi)) := by
  simp [encodeCore, not_le.2 h, coefficient]

theorem encodeCore_degenerate {s lo hi : Int} (h : hi ≤ lo) : encodeCore s lo hi = .error .domainError := by
  simp [encodeCore, h]

/-- The encoder's answer is a coefficient, or the range was degenerate. -/
theorem encodeCore_cases (s lo hi : Int) :
    (hi ≤ lo ∧ encodeCore s lo hi = .error .domainError) ∨
    (lo < hi ∧ ∃ a, encodeCore s lo hi = .ok a ∧ 0 ≤ a ∧ a ≤ 255) := by
  rcases le_or_gt hi lo with h | h
  · exact .inl ⟨h, encodeCore_degenerate h⟩
  · exact .inr ⟨h, _, encodeCore_valid h, coefficient_bounds _⟩

theorem encodeQuotient_mono {s t lo hi : Int} (h : lo < hi) (hst : s ≤ t) :
    encodeQuotient s lo hi ≤ encodeQuotient t lo hi :=
  floorDiv_mono (by omega) (by simp only [Config.fractionMax]; omega)

theorem interpCore_valid {c x0 x1 : Int} (h : x0 < x1) :
    interpCore c x0 x1 =
      .ok { raw := blend (coefficient c) x0 x1, corrected := corrected (blend (coefficient c) x0 x1),
            ovf := correctionOverflows (blend (coefficient c) x0 x1) } := by
  simp [interpCore, not_le.2 h]

theorem interpCore_degenerate {c x0 x1 : Int} (h : x1 ≤ x0) : interpCore c x0 x1 = .error .domainError := by
  simp [interpCore, h]

/-- The interpolator's answer is a blend with its correction and overflow flag, or the range was degenerate. -/
theorem interpCore_cases (c x0 x1 : Int) :
    (x1 ≤ x0 ∧ interpCore c x0 x1 = .error .domainError) ∨
    (x0 < x1 ∧ ∃ v, interpCore c x0 x1 = .ok v ∧ v.corrected = corrected v.raw ∧ v.ovf = correctionOverflows v.raw ∧
      v.raw = blend (coefficient c) x0 x1) := by
  rcases le_or_gt x1 x0 with h | h
  · exact .inl ⟨h, interpCore_degenerate h⟩
  · exact .inr ⟨h, _, interpCore_valid h, rfl, rfl, rfl⟩

/-- The blend of a coefficient stays between the endpoints (spec/42_interpolator.md R68). -/
theorem blend_bounds {a x0 x1 : Int} (ha : 0 ≤ a ∧ a ≤ 255) (h : x0 < x1) : x0 ≤ blend a x0 x1 ∧ blend a x0 x1 ≤ x1 := by
  have hp : 0 ≤ (x1 - x0) * a := mul_nonneg (by omega) ha.1
  have hq : (x1 - x0) * a ≤ (x1 - x0) * 255 := mul_le_mul_of_nonneg_left ha.2 (by omega)
  simp only [blend, floorDiv, Config.fractionMax]
  omega

theorem blend_mono {a b x0 x1 : Int} (hab : a ≤ b) (h : x0 < x1) : blend a x0 x1 ≤ blend b x0 x1 := by
  have hq : (x1 - x0) * a ≤ (x1 - x0) * b := mul_le_mul_of_nonneg_left hab (by omega)
  simp only [blend, floorDiv, Config.fractionMax]
  omega

theorem correctedExact_mono {r t : Int} (h : r ≤ t) : correctedExact r ≤ correctedExact t := by
  rw [correctedExact_eq, correctedExact_eq]; omega

/-- How a blending command ends: the word of the blend and the registers it leaves, or the fault. -/
theorem finishInterp_ok (v : InterpResult) (r : Regs) (s : State) :
    finishInterp (.ok v) r s = .next (answer (okWord v.ovf (bits32 v.corrected) (bits32 v.raw)) (setRegs r s)) := rfl

theorem finishInterp_error (k : FaultKind) (r : Regs) (s : State) :
    finishInterp (.error k) r s = .next (answer (faultWord k) s) := rfl

theorem mapCore_of_ok {v cl ch el eh a : Int} (h : encodeCore v cl ch = .ok a) :
    mapCore v cl ch el eh = interpCore a el eh := by
  simp [mapCore, h]

theorem mapCore_of_error {v cl ch el eh : Int} {k : FaultKind} (h : encodeCore v cl ch = .error k) :
    mapCore v cl ch el eh = .error k := by
  simp [mapCore, h]

/-- A blending command ends in one response and the given registers, or in a fault word and no change. -/
theorem finishInterp_cases (res : Except FaultKind InterpResult) (r : Regs) (s : State) :
    (∃ v, res = .ok v ∧
      finishInterp res r s = .next (answer (okWord v.ovf (bits32 v.corrected) (bits32 v.raw)) (setRegs r s))) ∨
    (∃ k, res = .error k ∧ finishInterp res r s = .next (answer (faultWord k) s)) := by
  cases res with
  | ok v => exact .inl ⟨v, rfl, rfl⟩
  | error k => exact .inr ⟨k, rfl, rfl⟩

end Sys2Proof.Machine
end

