-- ==== Sys2Proof/Laws/PerInstr.lean ====
section
/-! SUPPORT. Statements about every command as syntax, one lemma per constructor: the word of a well-formed command meets the
opcode-table row of that command (spec/30_encoding.md R55). -/

namespace Sys2Proof.Laws.EncodeMeetsRow

open Sys2Proof

/-- The word equals the row's match value under the row's mask, and a limited register operand is a named one. -/
def Statement (i : Instr) : Prop := i.wellFormed = true → (rowOf i).admits (encode i) = true

theorem mask_fields (op m1 : BitVec 4) (reg m2 : RegIndex) (data m3 : Word) :
    mkCmd op reg data &&& mkCmd m1 m2 m3 = mkCmd (op &&& m1) (reg &&& m2) (data &&& m3) := by
  apply BitVec.eq_of_getLsbD_eq
  intro i hi
  simp only [mkCmd, BitVec.getLsbD_and, BitVec.getLsbD_append]
  split
  · rfl
  · split <;> rfl

theorem wr_mask (v : Word) (reg : RegIndex) : mkCmd 0x2#4 reg v &&& 0xF000000000#40 = 0x2000000000#40 := by
  have h : (0xF000000000#40 : CmdWord) = mkCmd 0xF#4 0x0#4 0x0#32 := by decide
  rw [h, mask_fields]
  simp only [BitVec.and_zero]
  decide

theorem rd_mask (reg : RegIndex) : mkCmd 0x1#4 reg 0#32 &&& 0xF0FFFFFFFF#40 = 0x1000000000#40 := by
  revert reg; decide

theorem operand_mask (op : BitVec 4) (v : Word) :
    mkCmd op 0x0#4 v &&& 0xFF00000000#40 = mkCmd op 0x0#4 0x0#32 := by
  have h : (0xFF00000000#40 : CmdWord) = mkCmd 0xF#4 0xF#4 0x0#32 := by decide
  have hop : op &&& 0xF#4 = op := by revert op; decide
  rw [h, mask_fields, hop]
  simp

theorem rd (reg : RegIndex) : Statement (.rd reg) := fun h => by
  have h' : regNamed reg = true := h
  simp [OpcodeRow.admits, OpcodeRow.candidate, rowOf, rowRd, encode, rd_mask, h']

theorem wr (reg : RegIndex) (value : Word) : Statement (.wr reg value) := fun h => by
  have h' : regNamed reg = true := h
  simp [OpcodeRow.admits, OpcodeRow.candidate, rowOf, rowWr, encode, wr_mask, h']

theorem encode (sample : Word) : Statement (.encode sample) := fun _ => by
  simp only [OpcodeRow.admits, OpcodeRow.candidate, rowOf, rowEncode, Sys2Proof.encode, operand_mask,
    Bool.not_false, Bool.true_or, Bool.and_true]
  decide

theorem interp (coeff : Word) : Statement (.interp coeff) := fun _ => by
  simp only [OpcodeRow.admits, OpcodeRow.candidate, rowOf, rowInterp, Sys2Proof.encode, operand_mask,
    Bool.not_false, Bool.true_or, Bool.and_true]
  decide

theorem map (sample : Word) : Statement (.map sample) := fun _ => by
  simp only [OpcodeRow.admits, OpcodeRow.candidate, rowOf, rowMap, Sys2Proof.encode, operand_mask,
    Bool.not_false, Bool.true_or, Bool.and_true]
  decide

theorem peek : Statement .peek := fun _ => by decide

theorem pop : Statement .pop := fun _ => by decide

end Sys2Proof.Laws.EncodeMeetsRow
end

