-- ==== Sys2Proof/Laws/Step.lean ====
section
/-! SUPPORT. What a step does, one equation per kind of move of the host. -/

namespace Sys2Proof.Machine

theorem step_idle {s : State} (h : s.script = []) : step s = .next s := by simp [step, h]

theorem step_move {s : State} {m : HostMove} {rest : List HostMove} (h : s.script = m :: rest) :
    step s = runMove m (setScript rest s) := by simp [step, h]

theorem runMove_command (w : CmdWord) (s : State) : runMove (.command w) s = runCommand w s := rfl

theorem runMove_reset (s : State) : runMove .reset s = .next (applyReset s) := rfl

theorem runMove_commandCutByReset (w : CmdWord) (s : State) :
    runMove (.commandCutByReset w) s = .next (applyReset s) := rfl

theorem runCommand_legal {w : CmdWord} {i : Instr} (h : decode w = .ok i) (s : State) : runCommand w s = exec i s := by
  simp [runCommand, h]

theorem runCommand_illegal {w : CmdWord} {c : IllegalCause} (h : decode w = .error c) (s : State) :
    runCommand w s = .next (answer (faultWord .illegalCommand) s) := by
  simp [runCommand, h, raise]

/-- What a step can do: nothing, a reset, a decoded command, or the answer to an illegal word. -/
theorem step_cases (s : State) :
    (s.script = [] ∧ step s = .next s) ∨
    (∃ m rest, s.script = m :: rest ∧ (m = .reset ∨ ∃ w, m = .commandCutByReset w) ∧
      step s = .next (applyReset (setScript rest s))) ∨
    (∃ w i rest, s.script = .command w :: rest ∧ decode w = .ok i ∧ step s = exec i (setScript rest s)) ∨
    (∃ w c rest, s.script = .command w :: rest ∧ decode w = .error c ∧
      step s = .next (answer (faultWord .illegalCommand) (setScript rest s))) := by
  cases hs : s.script with
  | nil => exact .inl ⟨rfl, step_idle hs⟩
  | cons m rest =>
    right
    cases m with
    | reset => exact .inl ⟨_, rest, rfl, .inl rfl, step_move hs⟩
    | commandCutByReset w => exact .inl ⟨_, rest, rfl, .inr ⟨w, rfl⟩, step_move hs⟩
    | command w =>
      right
      cases hd : decode w with
      | ok i => exact .inl ⟨w, i, rest, rfl, hd, (step_move hs).trans (runCommand_legal hd _)⟩
      | error c => exact .inr ⟨w, c, rest, rfl, hd, (step_move hs).trans (runCommand_illegal hd _)⟩

end Sys2Proof.Machine
end

