-- ==== Sys2Proof/Laws/Run.lean ====
section
/-! SUPPORT. Runs of several steps, taken one step at a time. -/

namespace Sys2Proof.Machine

/-- A run begins with its first step. -/
theorem run_succ_of_next {s t : State} (h : step s = .next t) (n : Nat) :
    Host.Core.run Sys2Proof.core (n + 1) s = Host.Core.run Sys2Proof.core n t := by
  have h' : Sys2Proof.core.step s = .next t := h
  simp only [Host.Core.run, h']

theorem run_zero (s : State) : Host.Core.run Sys2Proof.core 0 s = .next s := rfl

/-- A run that begins with a legal command word begins with that command. -/
theorem run_succ_of_command {s t : State} {w : CmdWord} {i : Instr} {rest : List HostMove}
    (hs : s.script = .command w :: rest) (hd : decode w = .ok i) (he : exec i (setScript rest s) = .next t) (n : Nat) :
    Host.Core.run Sys2Proof.core (n + 1) s = Host.Core.run Sys2Proof.core n t :=
  run_succ_of_next ((step_move hs).trans ((runCommand_legal hd _).trans he)) n

end Sys2Proof.Machine
end

