-- ==== Sys2Proof/Tests/Slice0.lean ====
section
/-! SUPPORT. Tests: expected words and values are those of spec/95_test_vectors.md (vector named at each) or written out from the
encoding of spec/30_encoding.md; and, for every statement with hypotheses, a state and operands that meet them. -/

namespace Sys2Proof.Tests

open Sys2Proof Sys2Proof.Machine Sys2Proof.Stated

/-- A state with the six registers given in index order, and nothing else. -/
def st (calLow calHigh expLow expHigh accum stp : Int) : State :=
  { regs := { calLow := bits32 calLow, calHigh := bits32 calHigh, expLow := bits32 expLow, expHigh := bits32 expHigh,
              accum := bits32 accum, step := bits32 stp }, script := [], responses := [] }

/-- The state S of V15. -/
def ref : State := st 900 2800 1000 3000 80 1

/-- The last response and the registers after a command. -/
def outcome (r : Result) : Option (RspWord × Regs) :=
  match r with
  | .next t => (t.responses.getLast?).map fun w => (w, t.regs)
  | .fault _ => none
  | .refused _ => none

/-- The same after presenting a word, with the host's move taken by a step. -/
def present1 (s : State) (w : CmdWord) : Option (RspWord × Regs) := outcome (step (setScript [.command w] s))

/-! ### WellFormed smoke: each check refuses an ill-formed term -/

theorem test_rd_reserved_illformed : Instr.wellFormed (.rd 6#4) = false := by decide
theorem test_wr_reserved_illformed : Instr.wellFormed (.wr 15#4 7#32) = false := by decide
theorem test_named_wellformed : Instr.wellFormed (.rd 5#4) = true ∧ Instr.wellFormed (.wr 0#4 0#32) = true := by decide

/-! ### Decoding: words written out field by field, OP then REG then DATA (R40, R41) -/

theorem test_decode_rd : decode 0b0001010100000000000000000000000000000000#40 = .ok (.rd 5#4) := rfl
theorem test_decode_wr : decode 0b0010000111111111111111111111111111111111#40 = .ok (.wr 1#4 0xFFFFFFFF#32) := rfl
theorem test_decode_encode : decode 0b0100000000000000000000000000010111011100#40 = .ok (.encode 1500#32) := rfl
theorem test_decode_interp : decode 0b0101000010000000000000000000000000000000#40 = .ok (.interp 0x80000000#32) := rfl
theorem test_decode_map : decode 0b0110000000000000000000000000010111011100#40 = .ok (.map 1500#32) := rfl
theorem test_decode_peek : decode 0b1000000000000000000000000000000000000000#40 = .ok .peek := rfl
theorem test_decode_pop : decode 0b1001000000000000000000000000000000000000#40 = .ok .pop := rfl

/-- V15: one illegal word of each case of R50, and all-zero and all-ones. -/
theorem test_decode_illegal :
    decode 0x0000000000#40 = .error .reservedOp ∧ decode 0xFFFFFFFFFF#40 = .error .reservedOp ∧
    decode 0x1600000000#40 = .error .reservedReg ∧ decode 0x2F00000007#40 = .error .reservedReg ∧
    decode 0x1580000000#40 = .error .rdDataNotZero ∧ decode 0x41000005DC#40 = .error .execRegNotZero ∧
    decode 0x8000000001#40 = .error .laneFieldNotZero ∧ decode 0x9400000000#40 = .error .laneFieldNotZero :=
  ⟨rfl, rfl, rfl, rfl, rfl, rfl, rfl, rfl⟩

/-- The host's two questions, on one row of the table: the decoder's command, and the first step after reset. -/
theorem test_table_word :
    decodeTableWord 40 0x40000005DC = some (.encode 1500#32) ∧ decodeTableWord 40 0x1600000000 = none ∧
    outcome (step (State.reset.withFetchWord 40 0x1500000000)) = some (0#67, Regs.reset) := by decide

/-! ### The commands (V8 to V16) -/

/-- V14: -1 reads back as 0xFFFFFFFF in `D0` with `D1` 0. -/
theorem test_rd_negative : outcome (exec (.rd 1#4) (st 900 (-1) 0 0 0 0)) =
    some (0x000000000FFFFFFFF#67, (st 900 (-1) 0 0 0 0).regs) := by decide

/-- V15: RD STEP in state S. -/
theorem test_rd_step : present1 ref 0x1500000000#40 = some (0x1#67, ref.regs) := by decide

/-- V15: WR STEP, -1 in state S. -/
theorem test_wr_step : present1 ref 0x25FFFFFFFF#40 = some (0#67, (st 900 2800 1000 3000 80 (-1)).regs) := by decide

/-- V14: WR accepts a degenerate range. -/
theorem test_wr_degenerate : outcome (exec (.wr 1#4 6#32) (st 6 (-1) 0 0 0 1)) = some (0#67, (st 6 6 0 0 0 1).regs) := by
  decide

/-- V8: the reference sample, and the widest range (a 32-bit subtraction would wrap). -/
theorem test_encode_values :
    outcome (exec (.encode 1500#32) ref) = some (0x50#67, ref.regs) ∧
    outcome (exec (.encode 0#32) (st (-2147483648) 2147483647 0 0 0 0)) =
      some (0x7F#67, (st (-2147483648) 2147483647 0 0 0 0).regs) := by decide

/-- V16: the reversed widest range is degenerate (a 32-bit subtraction would wrap to +1). -/
theorem test_encode_degenerate : outcome (exec (.encode 0#32) (st 2147483647 (-2147483648) 0 0 0 0)) =
    some (0x10000000000000000#67, (st 2147483647 (-2147483648) 0 0 0 0).regs) := by decide

/-- V10: a negative result's arithmetic shift; 256 is clamped to 255 with `D1` above the range. -/
theorem test_interp_values :
    outcome (exec (.interp 127#32) (st 0 0 (-1000) 1000 0 0)) =
      some (0x0FFFFFFFBFFFFFFFC#67, (st 0 0 (-1000) 1000 0 0).regs) ∧
    outcome (exec (.interp 256#32) ref) = some (0x000000BC300000BB8#67, ref.regs) := by decide

/-- V10: the two sides of the overflow threshold. -/
theorem test_interp_overflow :
    outcome (exec (.interp 255#32) (st 0 0 0 2139127680 0 0)) =
      some (0x07FFFFFFF7F807F80#67, (st 0 0 0 2139127680 0 0).regs) ∧
    outcome (exec (.interp 255#32) (st 0 0 0 2139127681 0 0)) =
      some (0x4800000007F807F81#67, (st 0 0 0 2139127681 0 0).regs) := by decide

/-- V11: the reference scenario. -/
theorem test_map_reference : present1 ref 0x60000005DC#40 = some (0x0000006610000065B#67, ref.regs) := by decide

/-- V16: illegal and degenerate at once: IllegalCommand wins. -/
theorem test_map_illegal_first : present1 (st 50 50 100 100 5 1) 0x61000005DC#40 =
    some (0x20000000000000000#67, (st 50 50 100 100 5 1).regs) := by decide

/-- V13: 256 selects 255, -1 selects 0. -/
theorem test_peek_selector :
    outcome (exec .peek (st 11 22 1000 3000 256 1)) = some (0x000000BC300000BB8#67, (st 11 22 1000 3000 256 1).regs) ∧
    outcome (exec .peek (st 11 22 1000 3000 (-1) 1)) = some (0x0000003EB000003E8#67, (st 11 22 1000 3000 (-1) 1).regs) := by
  decide

/-- V13: the value from before the increment; the accumulator wraps; `OVF` does not stop the increment. -/
theorem test_pop_values :
    outcome (exec .pop ref) = some (0x0000006610000065B#67, (st 900 2800 1000 3000 81 1).regs) ∧
    outcome (exec .pop (st 11 22 1000 3000 2147483647 1)) =
      some (0x000000BC300000BB8#67, (st 11 22 1000 3000 (-2147483648) 1).regs) ∧
    outcome (exec .pop (st 11 22 (-2147483648) 2147483647 255 5)) =
      some (0x4807FFFFE7FFFFFFF#67, (st 11 22 (-2147483648) 2147483647 260 5).regs) := by decide

/-- V13: a POP that faults does not advance. -/
theorem test_pop_degenerate : outcome (exec .pop (st 11 22 3000 1000 80 1)) =
    some (0x10000000000000000#67, (st 11 22 3000 1000 80 1).regs) := by decide

/-! ### The assembler (P1, P2, P4 and R53) -/

theorem test_assemble_map : assembleLine ['M', 'A', 'P', ' ', ' ', '1', '5', '0', '0', ' ', ';', ' ', 'x'] =
    some [.map 1500#32] := by decide

theorem test_assemble_setcal :
    assembleLine ['S', 'E', 'T', 'C', 'A', 'L', ' ', '-', '4', '0', '0', ',', ' ', '1', '2', '5', '0'] =
      some [.wr 0#4 0xFFFFFE70#32, .wr 1#4 0x4E2#32] := by decide

/-- Hexadecimal gives the bits; 2147483648 is out of the decimal range; a missing and an extra operand are errors. -/
theorem test_assemble_operands :
    readImm ['0', 'x', 'F', 'F', 'F', 'F', 'F', 'F', 'F', 'F'] = some 0xFFFFFFFF#32 ∧
    readImm ['2', '1', '4', '7', '4', '8', '3', '6', '4', '8'] = none ∧
    readImm ['-', '2', '1', '4', '7', '4', '8', '3', '6', '4', '8'] = some 0x80000000#32 ∧
    assembleLine ['R', 'D'] = none ∧ assembleLine ['P', 'O', 'P', ' ', '1'] = none ∧
    assembleLine ['R', 'D', ' ', 'B', 'A', 'S', 'E', '1'] = some [.rd 3#4] := by decide

/-! ### Witnesses: for every statement with hypotheses, something that meets them, each clause at a boundary -/

/-- Calibrated range valid, expected range valid, in the reference state. -/
theorem ref_valid : ref.regs.calLow.toInt < ref.regs.calHigh.toInt ∧ ref.regs.expLow.toInt < ref.regs.expHigh.toInt := by
  decide

/-- The narrowest valid ranges. -/
theorem narrow_valid : (st 0 1 0 1 0 0).regs.calLow.toInt < (st 0 1 0 1 0 0).regs.calHigh.toInt ∧
    (st 0 1 0 1 0 0).regs.expLow.toInt < (st 0 1 0 1 0 0).regs.expHigh.toInt := by decide

/-- The boundary of a degenerate range: equal bounds. -/
theorem equal_degenerate :
    (st 50 50 100 100 5 1).regs.calHigh.toInt ≤ (st 50 50 100 100 5 1).regs.calLow.toInt ∧
    (st 50 50 100 100 5 1).regs.expHigh.toInt ≤ (st 50 50 100 100 5 1).regs.expLow.toInt := by decide

theorem witness_RdReadsTheNamedRegister : (0#4 : RegIndex).toNat ≤ 5 ∧ (5#4 : RegIndex).toNat ≤ 5 ∧
    (5 < (6#4 : RegIndex).toNat ∨ (0#32 : Word) ≠ 0#32) ∧ (5 < (5#4 : RegIndex).toNat ∨ (1#32 : Word) ≠ 0#32) := by decide
theorem witness_WrWritesTheNamedRegisterOnly : (5#4 : RegIndex).toNat ≤ 5 ∧ 5 < (6#4 : RegIndex).toNat := by decide
theorem witness_ReservedIndexRaisesIllegalCommand : 5 < (6#4 : RegIndex).toNat ∧ 5 < (15#4 : RegIndex).toNat := by decide
theorem witness_ReadAfterWriteReturnsLastWrite : (0#4 : RegIndex).toNat ≤ 5 ∧ (5#4 : RegIndex).toNat ≤ 5 := by decide
theorem witness_WritesToDifferentRegistersCommute :
    (0#4 : RegIndex).toNat ≤ 5 ∧ (5#4 : RegIndex).toNat ≤ 5 ∧ (0#4 : RegIndex) ≠ 5#4 := by decide

/-- The boundary of each clause (the other bound itself), and R58's own example: 3000 over the low bound of
{900, 2800}. -/
theorem witness_DegenerateWriteIsFoundAtUse :
    ref.regs.calHigh.toInt ≤ (2800#32 : Word).toInt ∧ ref.regs.calHigh.toInt ≤ (3000#32 : Word).toInt ∧
    (900#32 : Word).toInt ≤ ref.regs.calLow.toInt ∧
    ref.regs.expHigh.toInt ≤ (3000#32 : Word).toInt ∧ (1000#32 : Word).toInt ≤ ref.regs.expLow.toInt := by decide
theorem witness_EncodeAnswersClampedFloorQuotient :
    ref.regs.calLow.toInt < ref.regs.calHigh.toInt ∧
    (st 50 50 0 0 0 0).regs.calHigh.toInt ≤ (st 50 50 0 0 0 0).regs.calLow.toInt ∧ (1#4 : RegIndex) ≠ 0#4 := by decide
theorem witness_EncodeIsMonotoneInTheSample :
    ref.regs.calLow.toInt < ref.regs.calHigh.toInt ∧ (907#32 : Word).toInt ≤ (908#32 : Word).toInt := by decide
theorem witness_EncodeClampsOutsideTheCalibratedRange : ref.regs.calLow.toInt < ref.regs.calHigh.toInt ∧
    (900#32 : Word).toInt ≤ ref.regs.calLow.toInt ∧ ref.regs.calHigh.toInt ≤ (2800#32 : Word).toInt := by decide
theorem witness_EncodeLocatesAnInRangeSample : ref.regs.calLow.toInt < ref.regs.calHigh.toInt ∧
    ref.regs.calLow.toInt ≤ (2800#32 : Word).toInt ∧ (2800#32 : Word).toInt ≤ ref.regs.calHigh.toInt := by decide
theorem witness_InterpAnswersBlendAndCorrection :
    ref.regs.expLow.toInt < ref.regs.expHigh.toInt ∧
    (st 0 0 100 100 0 0).regs.expHigh.toInt ≤ (st 0 0 100 100 0 0).regs.expLow.toInt ∧ (8#4 : RegIndex) ≠ 0#4 := by decide
theorem witness_InterpRawStaysInTheExpectedRange : ref.regs.expLow.toInt < ref.regs.expHigh.toInt ∧
    (0#32 : Word).toInt ≤ 0 ∧ 255 ≤ (255#32 : Word).toInt ∧ (254#32 : Word).toInt < 255 := by decide
theorem witness_InterpIsMonotoneInTheCoefficient : ref.regs.expLow.toInt < ref.regs.expHigh.toInt ∧
    (254#32 : Word).toInt ≤ (255#32 : Word).toInt ∧
    rspOvf (blendWord 254 1000 3000) = false ∧ rspOvf (blendWord 255 1000 3000) = false := by decide
theorem witness_OverflowFlagThresholds :
    (st 0 0 0 2139127681 0 0).regs.expLow.toInt < (st 0 0 0 2139127681 0 0).regs.expHigh.toInt ∧
    (st 0 0 (-2139127681) 0 0 0).regs.expLow.toInt < (st 0 0 (-2139127681) 0 0 0).regs.expHigh.toInt := by decide

/-- `D0` 255, 0 and -1, none with overflow. -/
theorem witness_CorrectionIsOrderedByTheSignOfRaw :
    (st 0 0 (-1) 255 0 0).regs.expLow.toInt < (st 0 0 (-1) 255 0 0).regs.expHigh.toInt ∧
    rspOvf (blendWord 255 (-1) 255) = false ∧ (rspD0 (blendWord 255 (-1) 255)).toInt = 255 ∧
    rspOvf (blendWord 1 (-1) 255) = false ∧ (rspD0 (blendWord 1 (-1) 255)).toInt = 0 ∧
    rspOvf (blendWord 0 (-1) 255) = false ∧ (rspD0 (blendWord 0 (-1) 255)).toInt = -1 := by decide
theorem witness_MapEncodesThenBlends :
    (ref.regs.calLow.toInt < ref.regs.calHigh.toInt ∧ ref.regs.expLow.toInt < ref.regs.expHigh.toInt) ∧
    (st 50 50 1000 3000 5 1).regs.calHigh.toInt ≤ (st 50 50 1000 3000 5 1).regs.calLow.toInt ∧
    (st 900 2800 100 100 5 1).regs.expHigh.toInt ≤ (st 900 2800 100 100 5 1).regs.expLow.toInt ∧
    (1#4 : RegIndex) ≠ 0#4 := by decide
theorem witness_MapAnswersAsInterpOfEncode : ref.regs.expLow.toInt < ref.regs.expHigh.toInt ∧
    exec (.encode 1500#32) ref = .next (answer (okWord false 0#32 80#32) ref) := ⟨by decide, rfl⟩
theorem witness_MapIsMonotoneWithExactEndpoints :
    (ref.regs.calLow.toInt < ref.regs.calHigh.toInt ∧ ref.regs.expLow.toInt < ref.regs.expHigh.toInt) ∧
    (900#32 : Word).toInt ≤ (901#32 : Word).toInt ∧ (900#32 : Word).toInt ≤ ref.regs.calLow.toInt ∧
    (2800#32 : Word).toInt ≤ (2801#32 : Word).toInt ∧ ref.regs.calHigh.toInt ≤ (2800#32 : Word).toInt ∧
    rspOvf (blendWord 0 1000 3000) = false ∧ rspOvf (blendWord 255 1000 3000) = false := by decide
theorem witness_MapResidualErrorIsBounded :
    (ref.regs.calLow.toInt < ref.regs.calHigh.toInt ∧ ref.regs.expLow.toInt < ref.regs.expHigh.toInt) ∧
    ref.regs.calLow.toInt ≤ (900#32 : Word).toInt ∧ (2800#32 : Word).toInt ≤ ref.regs.calHigh.toInt ∧
    (900#32 : Word).toInt ≤ ref.regs.calHigh.toInt := by decide
theorem witness_PeekAnswersTheLaneValue :
    ref.regs.expLow.toInt < ref.regs.expHigh.toInt ∧
    (st 0 0 100 100 0 1).regs.expHigh.toInt ≤ (st 0 0 100 100 0 1).regs.expLow.toInt ∧
    ((1#4 : RegIndex) ≠ 0#4 ∨ (0#32 : Word) ≠ 0#32) ∧ ((0#4 : RegIndex) ≠ 0#4 ∨ (1#32 : Word) ≠ 0#32) := by decide
theorem witness_PopAnswersTheLaneValueThenAdvances :
    (st 0 0 1000 3000 2147483647 1).regs.expLow.toInt < (st 0 0 1000 3000 2147483647 1).regs.expHigh.toInt ∧
    (st 0 0 100 100 0 1).regs.expHigh.toInt ≤ (st 0 0 100 100 0 1).regs.expLow.toInt ∧
    ((4#4 : RegIndex) ≠ 0#4 ∨ (0#32 : Word) ≠ 0#32) ∧ ((0#4 : RegIndex) ≠ 0#4 ∨ (1#32 : Word) ≠ 0#32) := by decide
theorem witness_LaneReadsAgreeWithInterp : ref.regs.expLow.toInt < ref.regs.expHigh.toInt := by decide
theorem witness_RunOfPopsSweepsTheAccumulator : ref.regs.expLow.toInt < ref.regs.expHigh.toInt := by decide

/-- A fault word appears, so the clause on faults is not empty. -/
theorem witness_FaultResponseChangesNoRegister : rspSt (faultWord .domainError) ≠ 0b00#2 := by decide
theorem witness_IllegalWordsAreRejectedAndAnswered : Rejected 0x0000000000#40 ∧ Rejected 0x1600000000#40 ∧
    Rejected 0x1000000001#40 ∧ Rejected 0x41000005DC#40 ∧ Rejected 0x9000000001#40 :=
  ⟨⟨_, rfl⟩, ⟨_, rfl⟩, ⟨_, rfl⟩, ⟨_, rfl⟩, ⟨_, rfl⟩⟩
theorem witness_DecodeOfEncode : Instr.wellFormed (.rd 5#4) = true ∧ Instr.wellFormed (.wr 5#4 0xFFFFFFFF#32) = true ∧
    Instr.wellFormed (.encode 0#32) = true ∧ Instr.wellFormed .pop = true := by decide
theorem witness_EncodeOfDecode : decode 0x25FFFFFFFF#40 = .ok (.wr 5#4 0xFFFFFFFF#32) := rfl
theorem witness_LegalExactlyWhenARowAdmits : rowRd ∈ opcodeTable ∧ rowPop ∈ opcodeTable ∧
    rowRd.admits 0x1500000000#40 = true ∧ rowRd.admits 0x1600000000#40 = false := by decide
theorem witness_StepRunsTheDecodedCommand :
    (setScript [.command 0x9000000000#40] ref).script = .command 0x9000000000#40 :: [] ∧
    decode 0x9000000000#40 = .ok .pop := ⟨rfl, rfl⟩
theorem witness_PlacedWordRunsNext : Instr.wellFormed (.rd 5#4) = true := by decide
theorem witness_ResetMovesZeroTheRegisters : (setScript [.reset] ref).script = .reset :: [] ∧
    (setScript [.commandCutByReset 0x9000000000#40] ref).script = .commandCutByReset 0x9000000000#40 :: [] := ⟨rfl, rfl⟩
theorem witness_IdleStepChangesNothing : ref.script = [] := rfl
theorem witness_BehaviourRightAfterReset : (5#4 : RegIndex).toNat ≤ 5 ∧ Rejected 0xFFFFFFFFFF#40 := ⟨by decide, _, rfl⟩

/-- A WR, a POP, a reset and a cut-off command that change the registers. -/
theorem witness_RegistersChangeOnlyByWrPopOrReset :
    (∃ t, step (setScript [.command 0x25FFFFFFFF#40] ref) = .next t ∧ t.regs ≠ ref.regs) ∧
    (∃ t, step (setScript [.command 0x9000000000#40] ref) = .next t ∧ t.regs ≠ ref.regs) ∧
    (∃ t, step (setScript [.reset] ref) = .next t ∧ t.regs ≠ ref.regs) ∧
    (∃ t, step (setScript [.commandCutByReset 0x9000000000#40] ref) = .next t ∧ t.regs ≠ ref.regs) :=
  ⟨⟨_, rfl, by decide⟩, ⟨_, rfl, by decide⟩, ⟨_, rfl, by decide⟩, ⟨_, rfl, by decide⟩⟩
theorem witness_EachCommandWritesOnlyItsRegisters :
    exec .pop ref = .next (answer (okWord false 1633#32 1627#32) (st 900 2800 1000 3000 81 1)) ∧
    (0#4 : RegIndex) ≠ 4#4 ∧
    exec (.wr 5#4 7#32) ref = .next (answer (okWord false 0#32 0#32) (st 900 2800 1000 3000 80 7)) ∧
    (4#4 : RegIndex) ≠ 5#4 := ⟨rfl, by decide, rfl, by decide⟩

/-- Pairs of different register files that a command's response cannot tell apart, one pair for each command that reads. -/
theorem witness_EachCommandReadsOnlyItsRegisters :
    AgreeOnReads (.rd 5#4) (st 0 0 0 0 0 1).regs (st 9 9 9 9 9 1).regs ∧
    AgreeOnReads (.wr 5#4 7#32) (st 0 0 0 0 0 1).regs (st 9 9 9 9 9 9).regs ∧
    AgreeOnReads (.encode 1500#32) (st 900 2800 0 0 0 0).regs (st 900 2800 9 9 9 9).regs ∧
    AgreeOnReads (.interp 80#32) (st 0 0 1000 3000 0 0).regs (st 9 9 1000 3000 9 9).regs ∧
    AgreeOnReads (.map 1500#32) (st 900 2800 1000 3000 0 0).regs (st 900 2800 1000 3000 9 9).regs ∧
    AgreeOnReads .peek (st 0 0 1000 3000 80 0).regs (st 9 9 1000 3000 80 9).regs ∧
    AgreeOnReads .pop (st 0 0 1000 3000 80 0).regs (st 9 9 1000 3000 80 9).regs := by
  refine ⟨?_, ?_, ?_, ?_, ?_, ?_, ?_⟩ <;> simp only [AgreeOnReads] <;> decide
theorem witness_OnlyPopIsNotIdempotent : Instr.rd 4#4 ≠ .pop ∧ Instr.peek ≠ .pop ∧
    ref.regs.expLow.toInt < ref.regs.expHigh.toInt ∧ ref.regs.step ≠ 0#32 := by decide
theorem witness_EveryCommandCompletesWithOneResponse :
    (setScript [.command 0xFFFFFFFFFF#40] ref).script = .command 0xFFFFFFFFFF#40 :: [] := rfl
theorem witness_StepKeepsResponsesLegal :
    ResponsesLegal (setScript [.command 0x8000000000#40] (answer (faultWord .domainError) ref)) ∧
    step (setScript [.command 0x8000000000#40] (answer (faultWord .domainError) ref)) =
      .next (answer (okWord false 1633#32 1627#32) (answer (faultWord .domainError) ref)) := by
  refine ⟨fun w hw => ?_, rfl⟩
  obtain rfl : w = faultWord .domainError := by simpa [setScript, answer, ref, st] using hw
  simp [legalResponse]
theorem witness_AssemblerEmitsOnlyLegalWords :
    assemble ['R', 'D', ' ', 'S', 'T', 'E', 'P', '\n', 'P', 'O', 'P'] = some [.rd 5#4, .pop] := by decide

end Sys2Proof.Tests
end

namespace Sys2Proof.Machine

/-- Settles O39: with an empty script `step` takes its idle branch (`step_idle`), so the block does not act unasked (R11). -/
theorem idleStepChangesNothing : Obligations.IdleStepChangesNothing := by
  unfold Obligations.IdleStepChangesNothing
  intro s hscript
  exact step_idle hscript

end Sys2Proof.Machine

namespace Sys2Proof.Machine

/-! ### A command as a function of the registers

The response word and the registers left are written as functions of the command and the registers alone, and `exec_eq` says
that `exec` is these two and nothing else. What a command reads (R19, R22) and writes (R19) are then facts about them. -/

/-- The response of ENCODE to the encoder's result (R63). -/
def encodeResponse : Except FaultKind Int → RspWord
  | .ok a => okWord false 0#32 (bits32 a)
  | .error k => faultWord k

/-- The response of INTERP, MAP, PEEK and POP to the interpolator's result (R49). -/
def interpResponse : Except FaultKind InterpResult → RspWord
  | .ok v => okWord v.ovf (bits32 v.corrected) (bits32 v.raw)
  | .error k => faultWord k

/-- The registers a blending command leaves: `new` on success, `old` on a fault (R89). -/
def regsUnlessFault (new old : Regs) : Except FaultKind InterpResult → Regs
  | .ok _ => new
  | .error _ => old

/-- The response word of a command, from the registers it finds. -/
def responseOf (i : Instr) (r : Regs) : RspWord :=
  match i with
  | .rd reg => (readReg r reg).elim (faultWord .illegalCommand) (okWord false 0#32)
  | .wr reg _ => if regNamed reg then okWord false 0#32 0#32 else faultWord .illegalCommand
  | .encode sample => encodeResponse (encodeCore (sval sample) (sval r.calLow) (sval r.calHigh))
  | .interp coeff => interpResponse (interpCore (sval coeff) (sval r.expLow) (sval r.expHigh))
  | .map sample =>
    interpResponse (mapCore (sval sample) (sval r.calLow) (sval r.calHigh) (sval r.expLow) (sval r.expHigh))
  | .peek | .pop => interpResponse (laneValue r)

/-- The registers a command leaves, from the registers it finds. -/
def regsAfter (i : Instr) (r : Regs) : Regs :=
  match i with
  | .wr reg value => (writeReg r reg value).getD r
  | .pop => regsUnlessFault (advanceAccum r) r (laneValue r)
  | .rd _ | .encode _ | .interp _ | .map _ | .peek => r

@[simp] theorem regsUnlessFault_self (r : Regs) (res : Except FaultKind InterpResult) : regsUnlessFault r r res = r := by
  cases res <;> rfl

theorem finishInterp_eq (res : Except FaultKind InterpResult) (r : Regs) (s : State) :
    finishInterp res r s = .next (answer (interpResponse res) (setRegs (regsUnlessFault r s.regs res) s)) := by
  cases res with
  | ok v => exact finishInterp_ok v r s
  | error k => exact finishInterp_error k r s

/-- A blending command that writes no register. -/
theorem finishInterp_keep (res : Except FaultKind InterpResult) (s : State) :
    finishInterp res s.regs s = .next (answer (interpResponse res) s) := by
  simp [finishInterp_eq]

theorem execRd_eq (reg : RegIndex) (s : State) : execRd reg s = .next (answer (responseOf (.rd reg) s.regs) s) := by
  simp only [execRd, responseOf]
  cases readReg s.regs reg <;> rfl

theorem execWr_eq (reg : RegIndex) (v : Word) (s : State) :
    execWr reg v s =
      .next (answer (responseOf (.wr reg v) s.regs) (setRegs (regsAfter (.wr reg v) s.regs) s)) := by
  rcases Nat.lt_or_ge 5 reg.toNat with hreserved | hnamed
  · simp [execWr, responseOf, regsAfter, writeReg_reserved s.regs v hreserved, not_le.2 hreserved, raise]
  · obtain ⟨r', hwrite, -, -⟩ := writeReg_named s.regs v hnamed
    simp [execWr, responseOf, regsAfter, hwrite, hnamed, respond]

theorem execEncode_eq (v : Word) (s : State) :
    execEncode v s = .next (answer (responseOf (.encode v) s.regs) s) := by
  simp only [execEncode, responseOf]
  cases encodeCore (sval v) (sval s.regs.calLow) (sval s.regs.calHigh) <;> rfl

/-- What every command does: one response word more, and the registers replaced, both from the registers alone. -/
theorem exec_eq (i : Instr) (s : State) :
    exec i s = .next (answer (responseOf i s.regs) (setRegs (regsAfter i s.regs) s)) := by
  cases i with
  | rd reg => exact execRd_eq reg s
  | wr reg v => exact execWr_eq reg v s
  | encode v => exact execEncode_eq v s
  | interp c => exact finishInterp_keep _ s
  | map v => exact finishInterp_keep _ s
  | peek => exact finishInterp_keep _ s
  | pop => exact finishInterp_eq _ _ s

/-! ### What a command writes and what its response reads (R19) -/

theorem readReg_advanceAccum (r : Regs) {j : RegIndex} (hj : j ≠ 4#4) : readReg (advanceAccum r) j = readReg r j := by
  simp [readReg, hj]

/-- A write, successful or not, leaves every other index as it was. -/
theorem readReg_writeReg_other (r : Regs) {i j : RegIndex} (v : Word) (hj : j ≠ i) :
    readReg ((writeReg r i v).getD r) j = readReg r j := by
  rcases Nat.lt_or_ge 5 i.toNat with hreserved | hnamed
  · rw [writeReg_reserved r v hreserved, Option.getD_none]
  · obtain ⟨r', hwrite, -, hother⟩ := writeReg_named r v hnamed
    rw [hwrite, Option.getD_some, hother j hj]

theorem regsAfter_keepsOtherRegs (i : Instr) (r : Regs) : Stated.KeepsOtherRegs i r (regsAfter i r) := by
  cases i with
  | wr reg v => exact fun j hj => readReg_writeReg_other r v hj
  | pop =>
    intro j hj
    unfold regsAfter
    cases laneValue r with
    | ok v => exact readReg_advanceAccum r hj
    | error k => rfl
  | rd _ | encode _ | interp _ | map _ | peek => rfl

theorem laneValue_congr {r r' : Regs} (hlow : r.expLow = r'.expLow) (hhigh : r.expHigh = r'.expHigh)
    (haccum : r.accum = r'.accum) : laneValue r = laneValue r' := by
  simp only [laneValue, hlow, hhigh, haccum]

theorem responseOf_congr {i : Instr} {r r' : Regs} (h : Stated.AgreeOnReads i r r') :
    responseOf i r = responseOf i r' := by
  cases i with
  | rd reg =>
    have hread : readReg r reg = readReg r' reg := h
    simp only [responseOf, hread]
  | wr reg v => rfl
  | encode v =>
    obtain ⟨hcl, hch⟩ := h
    simp only [responseOf, hcl, hch]
  | interp c =>
    obtain ⟨hel, heh⟩ := h
    simp only [responseOf, hel, heh]
  | map v =>
    obtain ⟨hcl, hch, hel, heh⟩ := h
    simp only [responseOf, hcl, hch, hel, heh]
  | peek | pop =>
    obtain ⟨hel, heh, hac⟩ := h
    exact congrArg interpResponse (laneValue_congr hel heh hac)

/-! ### The statements of the family 10_state.md -/

/-- Settles O27: `decode` splits on the word alone; a legal word does what `exec_eq` says from the registers, an illegal one
answers the same fault from every state. -/
theorem pastResponsesDoNotMatter : Obligations.PastResponsesDoNotMatter := by
  unfold Obligations.PastResponsesDoNotMatter
  intro w r
  cases hd : decode w with
  | ok i =>
    refine ⟨responseOf i r, regsAfter i r, fun past rest => ?_⟩
    rw [step_move rfl, runMove_command, runCommand_legal hd, exec_eq]
    rfl
  | error c =>
    refine ⟨faultWord .illegalCommand, r, fun past rest => ?_⟩
    rw [step_move rfl, runMove_command, runCommand_illegal hd]
    rfl

/-- Settles O42: by `exec_eq` the next state differs in one appended response and in the registers, which
`regsAfter_keepsOtherRegs` bounds. -/
theorem eachCommandWritesOnlyItsRegisters : Obligations.EachCommandWritesOnlyItsRegisters := by
  unfold Obligations.EachCommandWritesOnlyItsRegisters
  intro i s t hexec
  rw [exec_eq] at hexec
  cases hexec
  exact ⟨rfl, ⟨_, rfl⟩, regsAfter_keepsOtherRegs i s.regs⟩

/-- Settles O43: the response word is `responseOf`, which is the same on registers that agree on the command's reads. -/
theorem eachCommandReadsOnlyItsRegisters : Obligations.EachCommandReadsOnlyItsRegisters := by
  unfold Obligations.EachCommandReadsOnlyItsRegisters
  intro i s t hagree
  refine ⟨responseOf i s.regs, _, _, exec_eq i s, exec_eq i t, rfl, ?_⟩
  rw [responseOf_congr hagree]
  rfl

/-- Settles O38: the reset state's registers are `Regs.reset` (R27). -/
theorem resetStateHoldsZeroInEveryRegister : Obligations.ResetStateHoldsZeroInEveryRegister := by
  unfold Obligations.ResetStateHoldsZeroInEveryRegister
  rfl

end Sys2Proof.Machine

namespace Sys2Proof.Machine

/-! ### Two commands in a row

By `exec_eq` the second command finds the registers that the first one leaves, so what two commands answer is read off
`responseOf` and `regsAfter`. -/

theorem decode_word_rd {i : RegIndex} (hi : i.toNat ≤ 5) : decode (Stated.word 0x1#4 i 0#32) = .ok (.rd i) :=
  (decode_mkCmd 0x1#4 i 0#32).trans (by simp [decodeFields, hi])

theorem decode_word_wr {i : RegIndex} (hi : i.toNat ≤ 5) (v : Word) :
    decode (Stated.word 0x2#4 i v) = .ok (.wr i v) :=
  (decode_mkCmd 0x2#4 i v).trans (by simp [decodeFields, hi])

/-- Two legal words presented one after the other run their commands in that order (R32). -/
theorem run_two_commands {s : State} {w₁ w₂ : CmdWord} {i₁ i₂ : Instr} {rest : List HostMove}
    (hs : s.script = .command w₁ :: .command w₂ :: rest) (h₁ : decode w₁ = .ok i₁) (h₂ : decode w₂ = .ok i₂) :
    Host.Core.run Sys2Proof.core 2 s = .next
      { regs := regsAfter i₂ (regsAfter i₁ s.regs)
        script := rest
        responses := s.responses ++ [responseOf i₁ s.regs, responseOf i₂ (regsAfter i₁ s.regs)] } := by
  rw [run_succ_of_command hs h₁ (exec_eq _ _), run_succ_of_command (rest := rest) rfl h₂ (exec_eq _ _), run_zero]
  simp [answer, setRegs, setScript]

/-! ### A register after a write (R35 (d)) -/

theorem responseOf_rd {r : Regs} {i : RegIndex} {v : Word} (h : readReg r i = some v) :
    responseOf (.rd i) r = okWord false 0#32 v := by
  simp [responseOf, h]

theorem responseOf_wr_named (r : Regs) {i : RegIndex} (v : Word) (hi : i.toNat ≤ 5) :
    responseOf (.wr i v) r = okWord false 0#32 0#32 := by
  simp [responseOf, hi]

/-- The register written holds the new value; an index that names another register reads as before. -/
theorem readReg_regsAfter_wr {r : Regs} {i j : RegIndex} {old : Word} (v : Word) (hi : i.toNat ≤ 5)
    (hold : readReg r j = some old) :
    readReg (regsAfter (.wr i v) r) j = some (if i = j then v else old) := by
  obtain ⟨r', hwrite, hsame, hother⟩ := writeReg_named r v hi
  have hafter : regsAfter (.wr i v) r = r' := by simp [regsAfter, hwrite]
  rw [hafter]
  split
  next heq => rw [← heq, hsame]
  next hne => rw [hother j (Ne.symm hne), hold]

/-! ### The same command again (R33) -/

/-- A WR issued again, to a named or a reserved index, writes nothing new. -/
theorem regsAfter_wr_twice (i : RegIndex) (v : Word) (r : Regs) :
    regsAfter (.wr i v) (regsAfter (.wr i v) r) = regsAfter (.wr i v) r := by
  simp only [regsAfter]
  cases hwrite : writeReg r i v with
  | some r' => simp [writeReg_twice hwrite]
  | none => simp [hwrite]

/-- Every command but POP answers the second time as the first and leaves the registers as once: WR because its response does
not depend on the registers and its write is the same, the others because they write nothing. -/
theorem second_like_first {i : Instr} (hi : i ≠ .pop) (r : Regs) :
    responseOf i (regsAfter i r) = responseOf i r ∧ regsAfter i (regsAfter i r) = regsAfter i r := by
  cases i with
  | wr reg v => exact ⟨rfl, regsAfter_wr_twice reg v r⟩
  | pop => exact absurd rfl hi
  | rd _ | encode _ | interp _ | map _ | peek => exact ⟨rfl, rfl⟩

/-- With a valid expected range a POP does advance the accumulator (R80). -/
theorem regsAfter_pop {r : Regs} (h : ExpValid r) : regsAfter .pop r = advanceAccum r := by
  simp [regsAfter, laneValue, interpCore_valid h, regsUnlessFault]

/-- A nonzero `STEP` moves the accumulator, since words of 32 bits add as a group. -/
theorem advanceAccum_ne_self {r : Regs} (h : r.step ≠ 0#32) : advanceAccum r ≠ r := by
  intro heq
  have haccum : r.accum + r.step = r.accum := by rw [← advanceAccum_accum, heq]
  exact h (add_eq_left.1 haccum)

/-! ### The statements of the family 20_memory.md -/

/-- Settles O4: the RD finds the registers the WR left, where `readReg_regsAfter_wr` says what each index reads. -/
theorem readAfterWriteReturnsLastWrite : Obligations.ReadAfterWriteReturnsLastWrite := by
  unfold Obligations.ReadAfterWriteReturnsLastWrite
  intro s i j v rest hi hj
  obtain ⟨old, hold⟩ := readReg_named s.regs hj
  refine ⟨_, old, hold, run_two_commands rfl (decode_word_wr hi v) (decode_word_rd hj), rfl, ?_⟩
  simp only [responseOf_wr_named s.regs v hi, responseOf_rd (readReg_regsAfter_wr v hi hold)]

/-- Settles O44: the first half is `second_like_first`; for POP the range stays valid and `STEP` nonzero, so that the second POP
advances the accumulator once more. -/
theorem onlyPopIsNotIdempotent : Obligations.OnlyPopIsNotIdempotent := by
  unfold Obligations.OnlyPopIsNotIdempotent
  constructor
  · intro i s hi
    obtain ⟨hrsp, hregs⟩ := second_like_first hi s.regs
    refine ⟨responseOf i s.regs, regsAfter i s.regs, exec_eq i s, ?_⟩
    rw [exec_eq, hrsp, hregs]
    rfl
  · intro s hvalid hstep
    refine ⟨_, _, exec_eq .pop s, exec_eq .pop _, ?_⟩
    have hfirst : regsAfter .pop s.regs = advanceAccum s.regs := regsAfter_pop hvalid
    have hsecond : regsAfter .pop (advanceAccum s.regs) = advanceAccum (advanceAccum s.regs) := regsAfter_pop hvalid
    simp only [answer_regs, setRegs_regs, hfirst, hsecond]
    exact advanceAccum_ne_self hstep

end Sys2Proof.Machine

namespace Sys2Proof

/-! ### The encoder and the decoder are inverse (R46)

A word is legal exactly when it is the word of a well-formed command (`decode_eq_ok_iff`). -/

/-- What the decoder accepts, on the three fields: the word they form is the command's, whose register operand is named. -/
theorem decodeFields_ok {op : BitVec 4} {reg : RegIndex} {data : Word} {i : Instr} (h : decodeFields op reg data = .ok i) :
    encode i = mkCmd op reg data ∧ i.wellFormed = true := by
  unfold decodeFields at h
  split_ifs at h with hrd hnamed hdata hwr hnamed hencode hreg hinterp hreg hmap hreg hpeek hzero hpop hzero <;> cases h
  · exact ⟨by rw [hrd, hdata, encode], hnamed⟩
  · exact ⟨by rw [hwr, encode], hnamed⟩
  · exact ⟨by rw [hencode, hreg, encode], rfl⟩
  · exact ⟨by rw [hinterp, hreg, encode], rfl⟩
  · exact ⟨by rw [hmap, hreg, encode], rfl⟩
  · exact ⟨by rw [hpeek, hzero.1, hzero.2, encode], rfl⟩
  · exact ⟨by rw [hpop, hzero.1, hzero.2, encode], rfl⟩

theorem encode_decode {w : CmdWord} {i : Instr} (h : decode w = .ok i) : encode i = w ∧ i.wellFormed = true := by
  obtain ⟨hword, hwf⟩ := decodeFields_ok h
  exact ⟨hword.trans (mkCmd_fields w), hwf⟩

theorem decode_encode {i : Instr} (h : i.wellFormed = true) : decode (encode i) = .ok i := by
  cases i with
  | rd reg => exact Machine.decode_word_rd ((regNamed_iff reg).1 h)
  | wr reg v => exact Machine.decode_word_wr ((regNamed_iff reg).1 h) v
  | encode v | interp v | map v => exact decode_mkCmd _ 0#4 v
  | peek | pop => exact decode_mkCmd _ 0#4 0#32

theorem decode_eq_ok_iff {w : CmdWord} {i : Instr} : decode w = .ok i ↔ i.wellFormed = true ∧ encode i = w := by
  constructor
  · intro h
    exact (encode_decode h).symm
  · rintro ⟨hwf, rfl⟩
    exact decode_encode hwf

/-- No two well-formed commands share a word. -/
theorem encode_injOn_wellFormed {i j : Instr} (hi : i.wellFormed = true) (hj : j.wellFormed = true)
    (h : encode i = encode j) : i = j := by
  have hdecode : (Except.ok i : Except IllegalCause Instr) = .ok j := by rw [← decode_encode hi, h, decode_encode hj]
  exact Except.ok.inj hdecode

/-- Settles O28: this is `decode_encode`, one case of the decoder's split per command. -/
theorem decodeOfEncode : Obligations.DecodeOfEncode := by
  unfold Obligations.DecodeOfEncode
  exact fun _ => decode_encode

/-- Settles O29: each branch in which the decoder accepts fixes all the fields that the command does not carry. -/
theorem encodeOfDecode : Obligations.EncodeOfDecode := by
  unfold Obligations.EncodeOfDecode
  exact fun _ _ => encode_decode

end Sys2Proof

namespace Sys2Proof.Machine

/-! ### Rejected words (R50) -/

/-- The operation codes of case (a) of R50. -/
def reservedOps : List (BitVec 4) := [0x0#4, 0x3#4, 0x7#4, 0xA#4, 0xB#4, 0xC#4, 0xD#4, 0xE#4, 0xF#4]

/-- Every operation code is a reserved one or one of the seven (R42). -/
theorem op_cases (op : BitVec 4) :
    op ∈ reservedOps ∨
    op = 0x1#4 ∨ op = 0x2#4 ∨ op = 0x4#4 ∨ op = 0x5#4 ∨ op = 0x6#4 ∨ op = 0x8#4 ∨ op = 0x9#4 := by
  revert op; decide

theorem decodeFields_reservedOp {op : BitVec 4} (h : op ∈ reservedOps) (reg : RegIndex) (data : Word) :
    decodeFields op reg data = .error .reservedOp := by
  have hne : op ≠ 0x1#4 ∧ op ≠ 0x2#4 ∧ op ≠ 0x4#4 ∧ op ≠ 0x5#4 ∧ op ≠ 0x6#4 ∧ op ≠ 0x8#4 ∧ op ≠ 0x9#4 := by
    revert op; decide
  simp [decodeFields, hne]

/-- A checked branch of the decoder rejects when its check fails or what comes after the check rejects. -/
theorem rejects_ite (p : Prop) [Decidable p] (accepted : Except IllegalCause Instr) (cause : IllegalCause) :
    (∃ c, (if p then accepted else .error cause) = .error c) ↔ ¬ p ∨ ∃ c, accepted = .error c := by
  split <;> simp [*]

theorem rejected_iff_fields (op : BitVec 4) (reg : RegIndex) (data : Word) :
    (∃ c, decodeFields op reg data = .error c) ↔
      op ∈ reservedOps ∨
      (op ∈ [0x1#4, 0x2#4] ∧ 6 ≤ reg.toNat) ∨
      (op = 0x1#4 ∧ data ≠ 0#32) ∨
      (op ∈ [0x4#4, 0x5#4, 0x6#4] ∧ reg ≠ 0#4) ∨
      (op ∈ [0x8#4, 0x9#4] ∧ (reg ≠ 0#4 ∨ data ≠ 0#32)) := by
  rcases op_cases op with hreserved | rfl | rfl | rfl | rfl | rfl | rfl | rfl
  case inl => exact iff_of_true ⟨_, decodeFields_reservedOp hreserved reg data⟩ (.inl hreserved)
  all_goals simp [reservedOps, decodeFields, rejects_ite, Nat.lt_iff_add_one_le, imp_iff_not_or]

/-- Settles O26: `rejected_iff_fields` on the fields of the word, and an illegal word is answered before any range is looked at
(`runCommand_illegal`). -/
theorem illegalWordsAreRejectedAndAnswered : Obligations.IllegalWordsAreRejectedAndAnswered := by
  unfold Obligations.IllegalWordsAreRejectedAndAnswered
  intro w
  refine ⟨rejected_iff_fields (cmdOp w) (cmdReg w) (cmdData w), ?_⟩
  rintro ⟨c, hc⟩ s
  exact runCommand_illegal hc s

end Sys2Proof.Machine

namespace Sys2Proof

/-! ### The opcode table (R55)

A row's match and mask are put together from fields like a word, so a word is a candidate when its three fields are, each under
its own mask. -/

theorem mkCmd_inj {op op' : BitVec 4} {reg reg' : RegIndex} {data data' : Word} :
    mkCmd op reg data = mkCmd op' reg' data' ↔ op = op' ∧ reg = reg' ∧ data = data' := by
  constructor
  · intro h
    exact ⟨by simpa using congrArg cmdOp h, by simpa using congrArg cmdReg h, by simpa using congrArg cmdData h⟩
  · rintro ⟨rfl, rfl, rfl⟩
    rfl

theorem mask_eq_mkCmd_iff (w : CmdWord) (op m₁ : BitVec 4) (reg m₂ : RegIndex) (data m₃ : Word) :
    w &&& mkCmd m₁ m₂ m₃ = mkCmd op reg data ↔
      cmdOp w &&& m₁ = op ∧ cmdReg w &&& m₂ = reg ∧ cmdData w &&& m₃ = data := by
  rw [← mkCmd_inj, ← Laws.EncodeMeetsRow.mask_fields, mkCmd_fields]

/-- The mask covers the fields of `OP` and, where `true` is given, those of `REG` and of `DATA` whole. -/
def rowMask (onReg onData : Bool) : CmdWord :=
  mkCmd 0xF#4 (if onReg then 0xF#4 else 0x0#4) (if onData then 0xFFFFFFFF#32 else 0x0#32)

theorem and_rowMask_iff (w : CmdWord) (op : BitVec 4) (onReg onData : Bool) :
    w &&& rowMask onReg onData = mkCmd op 0#4 0#32 ↔
      cmdOp w = op ∧ (onReg = true → cmdReg w = 0#4) ∧ (onData = true → cmdData w = 0#32) := by
  have hnibble : ∀ x : BitVec 4, x &&& 0xF#4 = x := by decide
  have hword (x : Word) : x &&& 0xFFFFFFFF#32 = x := BitVec.and_allOnes
  rw [rowMask, mask_eq_mkCmd_iff, hnibble]
  cases onReg <;> cases onData <;> simp [hnibble, hword]

/-- Each row as its operation code and the fields its mask fixes to 0 (the table of R55). -/
theorem rowRd_fields : rowRd = ⟨mkCmd 0x1#4 0#4 0#32, rowMask false true, true⟩ := by decide
theorem rowWr_fields : rowWr = ⟨mkCmd 0x2#4 0#4 0#32, rowMask false false, true⟩ := by decide
theorem rowEncode_fields : rowEncode = ⟨mkCmd 0x4#4 0#4 0#32, rowMask true false, false⟩ := by decide
theorem rowInterp_fields : rowInterp = ⟨mkCmd 0x5#4 0#4 0#32, rowMask true false, false⟩ := by decide
theorem rowMap_fields : rowMap = ⟨mkCmd 0x6#4 0#4 0#32, rowMask true false, false⟩ := by decide
theorem rowPeek_fields : rowPeek = ⟨mkCmd 0x8#4 0#4 0#32, rowMask true true, false⟩ := by decide
theorem rowPop_fields : rowPop = ⟨mkCmd 0x9#4 0#4 0#32, rowMask true true, false⟩ := by decide

theorem admits_row_iff (w : CmdWord) (op : BitVec 4) (onReg onData limited : Bool) :
    OpcodeRow.admits ⟨mkCmd op 0#4 0#32, rowMask onReg onData, limited⟩ w = true ↔
      cmdOp w = op ∧ (onReg = true → cmdReg w = 0#4) ∧ (onData = true → cmdData w = 0#32) ∧
        (limited = true → regNamed (cmdReg w) = true) := by
  simp only [OpcodeRow.admits, OpcodeRow.candidate, Bool.and_eq_true, beq_iff_eq, and_rowMask_iff]
  cases limited <;> simp [and_assoc]

/-- The word of a well-formed command meets its row: `Laws.EncodeMeetsRow`, command by command. -/
theorem rowOf_admits_encode {i : Instr} (h : i.wellFormed = true) : (rowOf i).admits (encode i) = true := by
  cases i with
  | rd reg => exact Laws.EncodeMeetsRow.rd reg h
  | wr reg v => exact Laws.EncodeMeetsRow.wr reg v h
  | encode v => exact Laws.EncodeMeetsRow.encode v h
  | interp c => exact Laws.EncodeMeetsRow.interp c h
  | map v => exact Laws.EncodeMeetsRow.map v h
  | peek => exact Laws.EncodeMeetsRow.peek h
  | pop => exact Laws.EncodeMeetsRow.pop h

/-- The command that a row reads from the fields of a word, one per row of the table. -/
theorem decode_of_row_admits {w : CmdWord} {r : OpcodeRow} (hr : r ∈ opcodeTable) (h : r.admits w = true) :
    ∃ i, decode w = .ok i ∧ rowOf i = r := by
  simp only [opcodeTable, List.mem_cons, List.not_mem_nil, or_false] at hr
  rcases hr with rfl | rfl | rfl | rfl | rfl | rfl | rfl
  · rw [rowRd_fields, admits_row_iff] at h
    exact ⟨.rd (cmdReg w), by simp [decode, decodeFields, h], rfl⟩
  · rw [rowWr_fields, admits_row_iff] at h
    exact ⟨.wr (cmdReg w) (cmdData w), by simp [decode, decodeFields, h], rfl⟩
  · rw [rowEncode_fields, admits_row_iff] at h
    exact ⟨.encode (cmdData w), by simp [decode, decodeFields, h], rfl⟩
  · rw [rowInterp_fields, admits_row_iff] at h
    exact ⟨.interp (cmdData w), by simp [decode, decodeFields, h], rfl⟩
  · rw [rowMap_fields, admits_row_iff] at h
    exact ⟨.map (cmdData w), by simp [decode, decodeFields, h], rfl⟩
  · rw [rowPeek_fields, admits_row_iff] at h
    exact ⟨.peek, by simp [decode, decodeFields, h], rfl⟩
  · rw [rowPop_fields, admits_row_iff] at h
    exact ⟨.pop, by simp [decode, decodeFields, h], rfl⟩

/-- Settles O30: a row that admits a word fixes the fields its command does not carry (`decode_of_row_admits`); a decoded word is
its command's word, which meets that command's row. -/
theorem legalExactlyWhenARowAdmits : Obligations.LegalExactlyWhenARowAdmits := by
  unfold Obligations.LegalExactlyWhenARowAdmits
  intro w r hr
  constructor
  · exact decode_of_row_admits hr
  · rintro ⟨i, hdecode, rfl⟩
    obtain ⟨hword, hwf⟩ := encode_decode hdecode
    rw [← hword]
    exact rowOf_admits_encode hwf

/-- Every row's mask covers `OP`, so a candidate has the row's operation code. -/
theorem cmdOp_of_candidate {w : CmdWord} {r : OpcodeRow} (hr : r ∈ opcodeTable) (h : r.candidate w = true) :
    cmdOp r.bits = cmdOp w := by
  have hmask : ∀ r ∈ opcodeTable, cmdOp r.mask = 0xF#4 := by decide
  have hall : cmdOp w &&& 0xF#4 = cmdOp w := BitVec.and_allOnes
  have hand : w &&& r.mask = r.bits := beq_iff_eq.1 h
  rw [← mkCmd_fields r.mask, ← mkCmd_fields r.bits, mask_eq_mkCmd_iff, hmask r hr, hall] at hand
  exact hand.1.symm

/-- Settles O31: the rows for which a word is a candidate are among those with its operation code, and the seven operation codes
differ. -/
theorem noWordIsCandidateForTwoRows : Obligations.NoWordIsCandidateForTwoRows := by
  unfold Obligations.NoWordIsCandidateForTwoRows
  intro w
  have hdistinct : (opcodeTable.map fun r => cmdOp r.bits).Nodup := by decide
  calc (opcodeTable.filter fun r => r.candidate w).length
      = opcodeTable.countP fun r => r.candidate w := List.countP_eq_length_filter.symm
    _ ≤ opcodeTable.countP fun r => cmdOp r.bits == cmdOp w :=
        List.countP_mono_left fun r hr hcand => beq_iff_eq.2 (cmdOp_of_candidate hr hcand)
    _ = (opcodeTable.map fun r => cmdOp r.bits).count (cmdOp w) := by rw [List.count, List.countP_map]; rfl
    _ ≤ 1 := List.nodup_iff_count_le_one.1 hdistinct _

end Sys2Proof

namespace Sys2Proof

/-! ### The number of legal words (R46)

The legal words are the words of the well-formed commands, one each, and a well-formed command is one of seven kinds with its
operands. -/

/-- A register index that names a register. -/
abbrev NamedIndex : Type := { i : RegIndex // regNamed i = true }

/-- The operands of a well-formed command, kind by kind: RD, WR, ENCODE, INTERP, MAP, PEEK, POP. -/
abbrev LegalOperands : Type := NamedIndex ⊕ (NamedIndex × Word) ⊕ Word ⊕ Word ⊕ Word ⊕ Unit ⊕ Unit

/-- A command whose register operand, if it has one, is named. -/
abbrev LegalCommand : Type := { i : Instr // i.wellFormed = true }

/-- A well-formed command is its kind with its operands. -/
def legalCommandEquiv : LegalCommand ≃ LegalOperands where
  toFun
    | ⟨.rd reg, h⟩ => .inl ⟨reg, h⟩
    | ⟨.wr reg v, h⟩ => .inr (.inl (⟨reg, h⟩, v))
    | ⟨.encode v, _⟩ => .inr (.inr (.inl v))
    | ⟨.interp c, _⟩ => .inr (.inr (.inr (.inl c)))
    | ⟨.map v, _⟩ => .inr (.inr (.inr (.inr (.inl v))))
    | ⟨.peek, _⟩ => .inr (.inr (.inr (.inr (.inr (.inl ())))))
    | ⟨.pop, _⟩ => .inr (.inr (.inr (.inr (.inr (.inr ())))))
  invFun
    | .inl reg => ⟨.rd reg.val, reg.property⟩
    | .inr (.inl (reg, v)) => ⟨.wr reg.val v, reg.property⟩
    | .inr (.inr (.inl v)) => ⟨.encode v, rfl⟩
    | .inr (.inr (.inr (.inl c))) => ⟨.interp c, rfl⟩
    | .inr (.inr (.inr (.inr (.inl v)))) => ⟨.map v, rfl⟩
    | .inr (.inr (.inr (.inr (.inr (.inl ()))))) => ⟨.peek, rfl⟩
    | .inr (.inr (.inr (.inr (.inr (.inr ()))))) => ⟨.pop, rfl⟩
  left_inv := by rintro ⟨i, h⟩; cases i <;> rfl
  right_inv := by rintro (_ | _ | _ | _ | _ | _ | _) <;> rfl

theorem encode_injective_on_legal : Function.Injective fun i : LegalCommand => encode i.val := fun i j h =>
  Subtype.ext (encode_injOn_wellFormed i.property j.property h)

theorem legalWords_eq_range : { w : CmdWord | ∃ i, decode w = .ok i } = Set.range fun i : LegalCommand => encode i.val := by
  ext w
  simp only [Set.mem_ofPred_eq, Set.mem_range, decode_eq_ok_iff, Subtype.exists, exists_prop]

theorem card_namedIndex : Nat.card NamedIndex = 6 := by
  rw [Nat.card_eq_fintype_card]
  decide

theorem card_word : Nat.card Word = 2 ^ 32 := by
  rw [Nat.card_congr BitVec.equivFin.toEquiv, Nat.card_fin]

/-- Six RD, `6 * 2^32` WR, `2^32` each of ENCODE, INTERP and MAP, one PEEK and one POP. -/
theorem card_legalOperands : Nat.card LegalOperands = 9 * 2 ^ 32 + 8 := by
  have hfinite : Finite Word := Finite.of_equiv _ BitVec.equivFin.toEquiv.symm
  simp only [Nat.card_sum, Nat.card_prod, card_namedIndex, card_word, Nat.card_unique]
  norm_num

/-- Settles O32: `encode` counts the legal words by the operands of the well-formed commands. -/
theorem numberOfLegalWords : Obligations.NumberOfLegalWords := by
  unfold Obligations.NumberOfLegalWords
  rw [legalWords_eq_range, Set.ncard_range_of_injective encode_injective_on_legal, Nat.card_congr legalCommandEquiv,
    card_legalOperands]

end Sys2Proof

namespace Sys2Proof.Machine

/-! ### Responses stay legal (R47 to R49) -/

theorem legalResponse_faultWord (k : FaultKind) : legalResponse (faultWord k) = true := by
  cases k <;> simp [legalResponse]

/-- The success word of RD, WR and ENCODE. -/
theorem legalResponse_okWord_plain (d0 : Word) : legalResponse (okWord false 0#32 d0) = true := by
  simp [legalResponse, responseOk, okConsistent, okWord, Status.code]

/-- The success word of a blend that fits its 32 bits: `D1` and `OVF` are those of the `D0` read back. -/
theorem legalResponse_okWord_blend {raw : Int} (h : -2147483648 ≤ raw ∧ raw ≤ 2147483647) :
    legalResponse (okWord (correctionOverflows raw) (bits32 (corrected raw)) (bits32 raw)) = true := by
  simp only [legalResponse, responseOk, okConsistent, okWord, corrected, bits32_wrap32, rspD0_rspWord, rspD1_rspWord,
    rspSt_rspWord, rspOvf_rspWord, sval_bits32 h, Status.code, beq_self_eq_true, Bool.and_true, Bool.or_true]

/-- `ST` of a legal response is one of the three named codes (R48). -/
theorem rspSt_ne_of_legalResponse {w : RspWord} (h : legalResponse w = true) : rspSt w ≠ 0b11#2 := by
  simp only [legalResponse, responseOk, Bool.or_eq_true, Bool.and_eq_true, beq_iff_eq] at h
  rcases h with (rfl | rfl) | ⟨hok, -⟩
  · decide
  · decide
  · rw [hok]
    decide

theorem legalResponse_encodeResponse (res : Except FaultKind Int) : legalResponse (encodeResponse res) = true := by
  cases res with
  | ok a => exact legalResponse_okWord_plain _
  | error k => exact legalResponse_faultWord k

/-- A blend between two register values fits 32 bits (`blend_bounds`), so its answer is consistent. -/
theorem legalResponse_interpCore (c : Int) (x0 x1 : Word) :
    legalResponse (interpResponse (interpCore c (sval x0) (sval x1))) = true := by
  rcases le_or_gt (sval x1) (sval x0) with hdegenerate | hvalid
  · rw [interpCore_degenerate hdegenerate]
    exact legalResponse_faultWord _
  · rw [interpCore_valid hvalid]
    have hblend := blend_bounds (coefficient_bounds c) hvalid
    exact legalResponse_okWord_blend
      ⟨(sval_bounds x0).1.trans hblend.1, hblend.2.trans (sval_bounds x1).2⟩

theorem legalResponse_mapCore (v cl ch : Int) (x0 x1 : Word) :
    legalResponse (interpResponse (mapCore v cl ch (sval x0) (sval x1))) = true := by
  cases hencode : encodeCore v cl ch with
  | ok a =>
    rw [mapCore_of_ok hencode]
    exact legalResponse_interpCore a x0 x1
  | error k =>
    rw [mapCore_of_error hencode]
    exact legalResponse_faultWord k

theorem legalResponse_responseOf (i : Instr) (r : Regs) : legalResponse (responseOf i r) = true := by
  cases i with
  | rd reg =>
    simp only [responseOf]
    cases readReg r reg with
    | none => exact legalResponse_faultWord _
    | some v => exact legalResponse_okWord_plain v
  | wr reg v =>
    simp only [responseOf]
    split
    · exact legalResponse_okWord_plain _
    · exact legalResponse_faultWord _
  | encode v => exact legalResponse_encodeResponse _
  | interp c => exact legalResponse_interpCore _ _ _
  | map v => exact legalResponse_mapCore _ _ _ _ _
  | peek | pop => exact legalResponse_interpCore _ _ _

/-- What one presented word does, legal or not: one response that the block can answer with, and registers replaced. -/
theorem runCommand_answers (w : CmdWord) (s : State) :
    ∃ rsp r, legalResponse rsp = true ∧ runCommand w s = .next (answer rsp (setRegs r s)) := by
  cases hdecode : decode w with
  | ok i =>
    exact ⟨_, _, legalResponse_responseOf i s.regs, (runCommand_legal hdecode s).trans (exec_eq i s)⟩
  | error c =>
    exact ⟨_, s.regs, legalResponse_faultWord .illegalCommand, runCommand_illegal hdecode s⟩

/-- Every step ends in a next state; its responses are those before, or those and one legal response more. -/
theorem step_next (s : State) :
    ∃ t, step s = .next t ∧
      (t.responses = s.responses ∨ ∃ rsp, legalResponse rsp = true ∧ t.responses = s.responses ++ [rsp]) := by
  cases hscript : s.script with
  | nil => exact ⟨s, step_idle hscript, .inl rfl⟩
  | cons m rest =>
    cases m with
    | reset | commandCutByReset => exact ⟨_, step_move hscript, .inl rfl⟩
    | command w =>
      obtain ⟨rsp, r, hlegal, hrun⟩ := runCommand_answers w (setScript rest s)
      exact ⟨_, (step_move hscript).trans hrun, .inr ⟨rsp, hlegal, rfl⟩⟩

theorem step_keeps_responsesLegal {s t : State} (h : ResponsesLegal s) (hstep : step s = .next t) : ResponsesLegal t := by
  obtain ⟨t', hnext, hresponses⟩ := step_next s
  obtain rfl : t' = t := Host.Outcome.next.inj (hnext.symm.trans hstep)
  rcases hresponses with hsame | ⟨rsp, hlegal, hmore⟩
  · rwa [ResponsesLegal, hsame]
  · rw [ResponsesLegal, hmore, List.forall_mem_append, List.forall_mem_singleton]
    exact ⟨h, hlegal⟩

/-- Settles O47: a step adds at most one response, and every response of the block is legal (`legalResponse_responseOf`), so its
status is not 0b11. -/
theorem stepKeepsResponsesLegal : Obligations.StepKeepsResponsesLegal := by
  unfold Obligations.StepKeepsResponsesLegal
  intro s t hs hstep
  have ht : ResponsesLegal t := step_keeps_responsesLegal hs hstep
  exact ⟨ht, fun w hw => rspSt_ne_of_legalResponse (ht w hw)⟩

/-- Settles O48: at reset no response has been received, so there is none to check (log entry 2). -/
theorem resetResponsesAreLegal : Obligations.ResetResponsesAreLegal := by
  unfold Obligations.ResetResponsesAreLegal
  exact List.forall_mem_nil _

/-! ### Steps and placed words -/

/-- Settles O45: `step_next` for the end of every step; where the move presents a word, `runCommand_answers` gives the one
response. -/
theorem everyCommandCompletesWithOneResponse : Obligations.EveryCommandCompletesWithOneResponse := by
  unfold Obligations.EveryCommandCompletesWithOneResponse
  intro s
  obtain ⟨t, hstep, -⟩ := step_next s
  refine ⟨t, hstep, fun w rest hscript => ?_⟩
  obtain ⟨rsp, r, -, hrun⟩ := runCommand_answers w (setScript rest s)
  obtain rfl : t = answer rsp (setRegs r (setScript rest s)) :=
    Host.Outcome.next.inj (hstep.symm.trans ((step_move hscript).trans hrun))
  exact ⟨rfl, rsp, rfl⟩

theorem step_of_command {s : State} {w : CmdWord} {i : Instr} {rest : List HostMove} (hscript : s.script = .command w :: rest)
    (hdecode : decode w = .ok i) : step s = exec i (setScript rest s) :=
  (step_move hscript).trans (runCommand_legal hdecode _)

/-- Settles O35: the step takes the move up and runs the word it presents. -/
theorem stepRunsTheDecodedCommand : Obligations.StepRunsTheDecodedCommand := by
  unfold Obligations.StepRunsTheDecodedCommand
  exact fun _ _ _ _ => step_of_command

/-- A command word, read as a number of 40 bits, is itself as a table word. -/
theorem tableWord_toNat (w : CmdWord) : tableWord 40 w.toNat = w := by
  rw [tableWord, Nat.mod_eq_of_lt w.isLt, BitVec.ofNat_toNat, BitVec.setWidth_eq]

theorem decodeTableWord_toNat {w : CmdWord} {i : Instr} (h : decode w = .ok i) : decodeTableWord 40 w.toNat = some i := by
  simp [decodeTableWord, tableWord_toNat, h, Config.cmdBits]

/-- Settles O36: the number of a command's word is read back as that word, which decodes to the command (`decode_encode`). -/
theorem placedWordRunsNext : Obligations.PlacedWordRunsNext := by
  unfold Obligations.PlacedWordRunsNext
  intro s i hwf
  have hdecode : decode (tableWord 40 (encode i).toNat) = .ok i := by rw [tableWord_toNat, decode_encode hwf]
  exact ⟨decodeTableWord_toNat (decode_encode hwf), step_of_command (withFetchWord_script s _ _) hdecode⟩

/-! ### The layout of a response word (R47) -/

/-- Two fields put side by side, as a number. -/
theorem toNat_append_eq_add {m n : Nat} (x : BitVec m) (y : BitVec n) : (x ++ y).toNat = x.toNat * 2 ^ n + y.toNat := by
  rw [BitVec.toNat_append, ← Nat.shiftLeft_add_eq_or_of_lt y.isLt, Nat.shiftLeft_eq]

theorem toNat_rspWord (ovf : Bool) (st : Status) (d1 d0 : Word) :
    (rspWord ovf st d1 d0).toNat = ovf.toNat * 2 ^ 66 + st.code.toNat * 2 ^ 64 + d1.toNat * 2 ^ 32 + d0.toNat := by
  simp only [rspWord, toNat_append_eq_add, BitVec.toNat_ofBool]
  omega

/-- Settles O34: the field lemmas of the response word, its number field by field, and the two fault words computed. -/
theorem responseWordLayout : Obligations.ResponseWordLayout := by
  unfold Obligations.ResponseWordLayout
  refine ⟨fun ovf st d1 d0 => ?_, fun _ _ _ => rfl, rfl, rfl, rfl, rfl, rfl⟩
  exact ⟨rspOvf_rspWord .., rspSt_rspWord .., rspD1_rspWord .., rspD0_rspWord .., toNat_rspWord ..⟩

/-! ### The assembler (R53, R54) -/

/-- Every command of the list can be encoded. -/
def AllWellFormed (program : List Instr) : Prop := ∀ i ∈ program, i.wellFormed = true

theorem allWellFormed_nil : AllWellFormed [] := List.forall_mem_nil _

theorem allWellFormed_singleton {i : Instr} (h : i.wellFormed = true) : AllWellFormed [i] :=
  List.forall_mem_singleton.2 h

theorem AllWellFormed.append {xs ys : List Instr} (hx : AllWellFormed xs) (hy : AllWellFormed ys) : AllWellFormed (xs ++ ys) :=
  List.forall_mem_append.2 ⟨hx, hy⟩

/-- A pseudo-instruction yields the commands of its expansion. -/
theorem withImms_wellFormed {f : Word → Word → List Instr} (hf : ∀ x y, AllWellFormed (f x y)) {a b : Text}
    {program : List Instr} (h : withImms f a b = some program) : AllWellFormed program := by
  unfold withImms at h
  split at h
  next => cases h; exact hf _ _
  next => cases h

/-- A command with one number for its operand. -/
theorem map_readImm_wellFormed {f : Word → Instr} (hf : ∀ x, (f x).wellFormed = true) {t : Text} {program : List Instr}
    (h : ((readImm t).map fun x => [f x]) = some program) : AllWellFormed program := by
  obtain ⟨x, -, rfl⟩ := Option.map_eq_some_iff.1 h
  exact allWellFormed_singleton (hf x)

/-- A statement yields well-formed commands: the names of registers stand for named indices (`readRegName_named`), and every
number is a legal operand. -/
theorem assembleStatement_wellFormed {m : Mnemonic} {operands : List Text} {program : List Instr}
    (h : assembleStatement m operands = some program) : AllWellFormed program := by
  unfold assembleStatement at h
  split at h
  case h_1 r =>
    obtain ⟨i, hname, rfl⟩ := Option.map_eq_some_iff.1 h
    exact allWellFormed_singleton (readRegName_named hname)
  case h_2 r v =>
    split at h
    next i x hname _ => cases h; exact allWellFormed_singleton (readRegName_named hname)
    next => cases h
  case h_3 | h_4 | h_5 => exact map_readImm_wellFormed (fun _ => rfl) h
  case h_6 | h_7 => cases h; exact allWellFormed_singleton rfl
  case h_8 => exact withImms_wellFormed setCal_wellFormed h
  case h_9 => exact withImms_wellFormed setExp_wellFormed h
  case h_10 => exact withImms_wellFormed setLane_wellFormed h
  case h_11 => cases h

theorem assembleLine_wellFormed {line : Text} {program : List Instr} (h : assembleLine line = some program) :
    AllWellFormed program := by
  simp only [assembleLine] at h
  split at h
  next => cases h; exact allWellFormed_nil
  next =>
    split at h
    next => exact assembleStatement_wellFormed h
    next => cases h

theorem assembleLines_wellFormed {lines : List Text} {program : List Instr} (h : assembleLines lines = some program) :
    AllWellFormed program := by
  induction lines generalizing program with
  | nil => cases h; exact allWellFormed_nil
  | cons line lines ih =>
    unfold assembleLines at h
    split at h
    next xs ys hline hlines => cases h; exact (assembleLine_wellFormed hline).append (ih hlines)
    next => cases h

/-- Settles O49: the commands of a text are well formed, line by line, and so decode from their words (`decode_encode`). -/
theorem assemblerEmitsOnlyLegalWords : Obligations.AssemblerEmitsOnlyLegalWords := by
  unfold Obligations.AssemblerEmitsOnlyLegalWords
  intro source program hassemble i hi
  exact decode_encode (assembleLines_wellFormed hassemble i hi)

/-- Two WRs of named registers presented in a row get one OK response each; the second writes on what the first left. -/
theorem run_present_two_writes (s : State) {i j : RegIndex} (a b : Word) (rest : List HostMove) (hi : i.toNat ≤ 5)
    (hj : j.toNat ≤ 5) :
    Host.Core.run Sys2Proof.core 2 { s with script := present [.wr i a, .wr j b] ++ rest } = .next
      { regs := regsAfter (.wr j b) (regsAfter (.wr i a) s.regs)
        script := rest
        responses := s.responses ++ [okWord false 0#32 0#32, okWord false 0#32 0#32] } := by
  rw [run_two_commands rfl (decode_word_wr hi a) (decode_word_wr hj b), responseOf_wr_named _ a hi, responseOf_wr_named _ b hj]
  rfl

/-- Settles O50: each expansion is two WRs of named registers, and the registers after them are read off `writeReg`. -/
theorem pseudoInstructionsSetTheirRegisters : Obligations.PseudoInstructionsSetTheirRegisters := by
  unfold Obligations.PseudoInstructionsSetTheirRegisters
  intro s a b rest
  exact ⟨run_present_two_writes s (i := 0#4) (j := 1#4) a b rest (by decide) (by decide),
    run_present_two_writes s (i := 2#4) (j := 3#4) a b rest (by decide) (by decide),
    run_present_two_writes s (i := 4#4) (j := 5#4) a b rest (by decide) (by decide)⟩

end Sys2Proof.Machine

namespace Sys2Proof.Machine

open Stated

/-! ### Uses of a degenerate range (R58)

A WR does not look at the other bound of its range; the commands that use the range do, each through `encodeCore` or
`interpCore`. -/

/-- In the registers `r` the command answers DomainError and leaves the registers alone (R89). -/
def RaisesDomainError (r : Regs) (i : Instr) : Prop :=
  responseOf i r = faultWord .domainError ∧ regsAfter i r = r

theorem encode_raises_of_calDegenerate {r : Regs} (h : ¬ CalValid r) (x : Word) : RaisesDomainError r (.encode x) :=
  ⟨congrArg encodeResponse (encodeCore_degenerate (not_lt.1 h)), rfl⟩

theorem map_raises_of_calDegenerate {r : Regs} (h : ¬ CalValid r) (x : Word) : RaisesDomainError r (.map x) :=
  ⟨congrArg interpResponse (mapCore_of_error (encodeCore_degenerate (not_lt.1 h))), rfl⟩

theorem interp_raises_of_expDegenerate {r : Regs} (h : ¬ ExpValid r) (x : Word) : RaisesDomainError r (.interp x) :=
  ⟨congrArg interpResponse (interpCore_degenerate (not_lt.1 h)), rfl⟩

/-- MAP finds the expected range degenerate whether or not the calibrated one, which it tests first (R88), is valid. -/
theorem map_raises_of_expDegenerate {r : Regs} (h : ¬ ExpValid r) (x : Word) : RaisesDomainError r (.map x) := by
  by_cases hcal : CalValid r
  · have hmap := mapCore_of_ok (el := sval r.expLow) (eh := sval r.expHigh) (encodeCore_valid (s := sval x) hcal)
    exact ⟨congrArg interpResponse (hmap.trans (interpCore_degenerate (not_lt.1 h))), rfl⟩
  · exact map_raises_of_calDegenerate hcal x

theorem laneValue_of_expDegenerate {r : Regs} (h : ¬ ExpValid r) : laneValue r = .error .domainError :=
  interpCore_degenerate (not_lt.1 h)

theorem peek_raises_of_expDegenerate {r : Regs} (h : ¬ ExpValid r) : RaisesDomainError r .peek :=
  ⟨congrArg interpResponse (laneValue_of_expDegenerate h), rfl⟩

/-- A POP that faults does not advance the accumulator (R80). -/
theorem pop_raises_of_expDegenerate {r : Regs} (h : ¬ ExpValid r) : RaisesDomainError r .pop :=
  ⟨congrArg interpResponse (laneValue_of_expDegenerate h),
    congrArg (regsUnlessFault (advanceAccum r) r) (laneValue_of_expDegenerate h)⟩

/-- The commands that use the calibrated range, at operand `x` (R84). -/
def calUses (x : Word) : List Instr := [.encode x, .map x]

/-- The commands that use the expected range, at operand `x` where they take one (R84). -/
def expUses (x : Word) : List Instr := [.interp x, .map x, .peek, .pop]

theorem calUses_raise {r : Regs} (h : ¬ CalValid r) (x : Word) :
    ∀ i ∈ calUses x, i.wellFormed = true ∧ RaisesDomainError r i := by
  simp [calUses, Instr.wellFormed, encode_raises_of_calDegenerate h, map_raises_of_calDegenerate h]

theorem expUses_raise {r : Regs} (h : ¬ ExpValid r) (x : Word) :
    ∀ i ∈ expUses x, i.wellFormed = true ∧ RaisesDomainError r i := by
  simp [expUses, Instr.wellFormed, interp_raises_of_expDegenerate h, map_raises_of_expDegenerate h,
    peek_raises_of_expDegenerate h, pop_raises_of_expDegenerate h]

/-- A WR of a named register succeeds whatever it leaves; a command that raises DomainError in the registers it leaves does so
when presented next. -/
theorem degenerateFoundBy_wr (s : State) {i : RegIndex} (v : Word) {uses : List Instr} (rest : List HostMove)
    (hi : i.toNat ≤ 5)
    (huses : ∀ use ∈ uses, use.wellFormed = true ∧ RaisesDomainError (regsAfter (.wr i v) s.regs) use) :
    DegenerateFoundBy s (word 0x2#4 i v) (regsAfter (.wr i v) s.regs) (uses.map encode) rest := by
  refine List.forall_mem_map.2 fun use huse => ?_
  obtain ⟨hwf, hresponse, hregs⟩ := huses use huse
  rw [run_two_commands rfl (decode_word_wr hi v) (decode_encode hwf), responseOf_wr_named s.regs v hi, hresponse, hregs]

/-! ### RD and WR by index, and the words the decoder rejects (R56, R57) -/

theorem exec_rd_of_readReg {s : State} {i : RegIndex} {v : Word} (h : readReg s.regs i = some v) :
    exec (.rd i) s = .next (answer (okWord false 0#32 v) s) := by
  rw [exec_eq, responseOf_rd h]
  rfl

theorem exec_wr_of_writeReg {s : State} {i : RegIndex} {v : Word} {r : Regs} (hi : i.toNat ≤ 5)
    (h : writeReg s.regs i v = some r) :
    exec (.wr i v) s = .next (answer (okWord false 0#32 0#32) (setRegs r s)) := by
  have hafter : regsAfter (.wr i v) s.regs = r := by simp [regsAfter, h]
  rw [exec_eq, responseOf_wr_named s.regs v hi, hafter]

/-- A word put together from fields is rejected exactly when the decoder's case split on the fields rejects. -/
theorem rejected_word_iff (op reg : BitVec 4) (data : Word) :
    Rejected (word op reg data) ↔ ∃ c, decodeFields op reg data = .error c := by
  rw [← decode_mkCmd]
  rfl

theorem rejected_word_rd {i : RegIndex} {d : Word} (h : 5 < i.toNat ∨ d ≠ 0#32) : Rejected (word 0x1#4 i d) := by
  rw [rejected_word_iff, rejected_iff_fields]
  rcases h with hreserved | hdata
  · exact .inr (.inl ⟨by decide, hreserved⟩)
  · exact .inr (.inr (.inl ⟨rfl, hdata⟩))

theorem rejected_word_wr {i : RegIndex} (v : Word) (h : 5 < i.toNat) : Rejected (word 0x2#4 i v) := by
  rw [rejected_word_iff, rejected_iff_fields]
  exact .inr (.inl ⟨by decide, h⟩)

/-! ### The statements of the family 40_register_access.md -/

/-- Settles O6: each write leaves a degenerate range, which every use of it finds (`calUses_raise`, `expUses_raise`). -/
theorem degenerateWriteIsFoundAtUse : Obligations.DegenerateWriteIsFoundAtUse := by
  unfold Obligations.DegenerateWriteIsFoundAtUse
  intro s v x rest
  refine ⟨fun h => ?calLow, fun h => ?calHigh, fun h => ?expLow, fun h => ?expHigh⟩
  case calLow => exact degenerateFoundBy_wr s (i := 0#4) v rest (by decide) (calUses_raise (not_lt.2 h) x)
  case calHigh => exact degenerateFoundBy_wr s (i := 1#4) v rest (by decide) (calUses_raise (not_lt.2 h) x)
  case expLow => exact degenerateFoundBy_wr s (i := 2#4) v rest (by decide) (expUses_raise (not_lt.2 h) x)
  case expHigh => exact degenerateFoundBy_wr s (i := 3#4) v rest (by decide) (expUses_raise (not_lt.2 h) x)

/-- Settles O1: each of the six indices reads its register; the word decodes by `decode_word_rd`, and its defects are cases (b)
and (c) of R50. -/
theorem rdReadsTheNamedRegister : Obligations.RdReadsTheNamedRegister := by
  unfold Obligations.RdReadsTheNamedRegister
  refine ⟨fun s => ?_, fun _ => decode_word_rd, fun _ _ => rejected_word_rd⟩
  refine ⟨?_, ?_, ?_, ?_, ?_, ?_⟩ <;> exact exec_rd_of_readReg rfl

/-- Settles O2: each of the six indices writes its register's field and no other; the word decodes by `decode_word_wr`, and a
reserved index is case (b) of R50. -/
theorem wrWritesTheNamedRegisterOnly : Obligations.WrWritesTheNamedRegisterOnly := by
  unfold Obligations.WrWritesTheNamedRegisterOnly
  refine ⟨fun s v => ?_, fun _ v hi => decode_word_wr hi v, fun _ v => rejected_word_wr v⟩
  refine ⟨?_, ?_, ?_, ?_, ?_, ?_⟩ <;> exact exec_wr_of_writeReg (by decide) rfl

end Sys2Proof.Machine

namespace Sys2Proof.Machine

open Stated

/-! ### The coefficient of a sample (R61, R62, R64)

`encoded` is the formula of the statements, `encodeQuotient` and `coefficient` the model's two stages; the properties of R64 are
proved of the stages and carried to `encoded` by `encoded_eq`. -/

theorem encoded_eq (s : Int) {lo hi : Int} (h : lo < hi) : encoded s lo hi = coefficient (encodeQuotient s lo hi) := by
  rw [encoded, encodeQuotient, Config.fractionMax, floorDiv_eq_fdiv (sub_pos.2 h).le, coefficient_eq]

/-- The rule of the floor quotient (R7) for the quotient of R61: its comparisons are comparisons of products. -/
theorem le_encodeQuotient_iff {q s lo hi : Int} (h : lo < hi) :
    q ≤ encodeQuotient s lo hi ↔ q * (hi - lo) ≤ 255 * (s - lo) :=
  le_floorDiv_iff (sub_pos.2 h)

theorem encodeQuotient_nonpos {s lo hi : Int} (h : lo < hi) (hs : s ≤ lo) : encodeQuotient s lo hi ≤ 0 := by
  have hlt : ¬ 1 ≤ encodeQuotient s lo hi := by
    rw [le_encodeQuotient_iff h]
    omega
  omega

theorem le_encodeQuotient_of_high_le {s lo hi : Int} (h : lo < hi) (hs : hi ≤ s) : 255 ≤ encodeQuotient s lo hi := by
  rw [le_encodeQuotient_iff h]
  omega

/-- Inside the range the clamp is inactive (R64 (e)). -/
theorem encodeQuotient_bounds {s lo hi : Int} (h : lo < hi) (hlo : lo ≤ s) (hhi : s ≤ hi) :
    0 ≤ encodeQuotient s lo hi ∧ encodeQuotient s lo hi ≤ 255 := by
  have hnonneg : 0 ≤ encodeQuotient s lo hi := by
    rw [le_encodeQuotient_iff h]
    omega
  have hlt : ¬ 256 ≤ encodeQuotient s lo hi := by
    rw [le_encodeQuotient_iff h]
    omega
  exact ⟨hnonneg, by omega⟩

theorem coefficient_of_nonpos {c : Int} (h : c ≤ 0) : coefficient c = 0 := by
  rw [coefficient_eq]
  omega

theorem coefficient_of_ge {c : Int} (h : 255 ≤ c) : coefficient c = 255 := by
  rw [coefficient_eq]
  omega

theorem encoded_bounds (s : Int) {lo hi : Int} (h : lo < hi) : 0 ≤ encoded s lo hi ∧ encoded s lo hi ≤ 255 := by
  rw [encoded_eq s h]
  exact coefficient_bounds _

theorem encoded_mono {s t lo hi : Int} (h : lo < hi) (hst : s ≤ t) : encoded s lo hi ≤ encoded t lo hi := by
  rw [encoded_eq s h, encoded_eq t h]
  exact coefficient_mono (encodeQuotient_mono h hst)

theorem encoded_of_le_low {s lo hi : Int} (h : lo < hi) (hs : s ≤ lo) : encoded s lo hi = 0 := by
  rw [encoded_eq s h, coefficient_of_nonpos (encodeQuotient_nonpos h hs)]

theorem encoded_of_high_le {s lo hi : Int} (h : lo < hi) (hs : hi ≤ s) : encoded s lo hi = 255 := by
  rw [encoded_eq s h, coefficient_of_ge (le_encodeQuotient_of_high_le h hs)]

/-- The sample's position in the range lies between two neighbouring coefficients: R64 (e), multiplied out. -/
theorem encoded_locates {s lo hi : Int} (h : lo < hi) (hlo : lo ≤ s) (hhi : s ≤ hi) :
    encoded s lo hi * (hi - lo) ≤ 255 * (s - lo) ∧ 255 * (s - lo) < (encoded s lo hi + 1) * (hi - lo) := by
  rw [encoded_eq s h, coefficient_of_mem (encodeQuotient_bounds h hlo hhi)]
  exact floorDiv_spec (sub_pos.2 h)

/-! ### ENCODE (R63) -/

/-- A number that is not negative and below `2^32` is read back from its 32 bits without sign. -/
theorem toNat_bits32 {v : Int} (h : 0 ≤ v ∧ v < 4294967296) : (bits32 v).toNat = v.toNat := by
  rw [bits32, BitVec.toNat_ofInt]
  omega

/-- The coefficient that ENCODE finds for a sample in the calibrated range of the registers. -/
def calCoefficient (r : Regs) (v : Word) : Int := encoded (sval v) (sval r.calLow) (sval r.calHigh)

theorem calCoefficient_bounds {r : Regs} (h : CalValid r) (v : Word) : 0 ≤ calCoefficient r v ∧ calCoefficient r v ≤ 255 :=
  encoded_bounds _ h

theorem exec_encode_of_calValid {s : State} (h : CalValid s.regs) (v : Word) :
    exec (.encode v) s = .next (answer (okWord false 0#32 (bits32 (calCoefficient s.regs v))) s) := by
  have hcore := encodeCore_valid (s := sval v) h
  rw [← encoded_eq _ h] at hcore
  have hresponse : responseOf (.encode v) s.regs = okWord false 0#32 (bits32 (calCoefficient s.regs v)) :=
    congrArg encodeResponse hcore
  rw [exec_eq, hresponse]
  rfl

theorem exec_encode_of_calDegenerate {s : State} (h : ¬ CalValid s.regs) (v : Word) :
    exec (.encode v) s = .next (answer (faultWord .domainError) s) := by
  obtain ⟨hresponse, hregs⟩ := encode_raises_of_calDegenerate h v
  rw [exec_eq, hresponse, hregs, setRegs_self]

theorem rejected_word_encode {i : RegIndex} (v : Word) (h : i ≠ 0#4) : Rejected (word 0x4#4 i v) := by
  rw [rejected_word_iff, rejected_iff_fields]
  exact .inr (.inr (.inr (.inl ⟨by decide, h⟩)))

/-! ### The statements of the family 41_fraction_encoder.md -/

/-- Settles O7: the range is valid or degenerate, one lemma on `exec` for each; the word is that of a well-formed command
(`decode_encode`), and a nonzero `REG` is case (d) of R50. -/
theorem encodeAnswersClampedFloorQuotient : Obligations.EncodeAnswersClampedFloorQuotient := by
  unfold Obligations.EncodeAnswersClampedFloorQuotient
  refine ⟨fun s v hvalid => ?valid, fun s v hdegenerate => ?degenerate, fun v => ?decoded, fun i v => ?rejected⟩
  case valid => exact exec_encode_of_calValid hvalid v
  case degenerate => exact exec_encode_of_calDegenerate (not_lt.2 hdegenerate) v
  case decoded => exact decode_encode (i := .encode v) rfl
  case rejected => exact rejected_word_encode v

/-- Settles O8: each stage of the encoder is monotone (`encoded_mono`), and a coefficient is its word's number. -/
theorem encodeIsMonotoneInTheSample : Obligations.EncodeIsMonotoneInTheSample := by
  unfold Obligations.EncodeIsMonotoneInTheSample
  intro s v w hvalid hvw
  refine ⟨_, _, exec_encode_of_calValid hvalid v, exec_encode_of_calValid hvalid w, ?_⟩
  have hmono : calCoefficient s.regs v ≤ calCoefficient s.regs w := encoded_mono hvalid hvw
  have hv := calCoefficient_bounds hvalid v
  have hw := calCoefficient_bounds hvalid w
  rw [toNat_bits32 (by omega), toNat_bits32 (by omega)]
  omega

/-- Settles O9: outside the range the quotient is at most 0 or at least 255, and the clamp answers that bound. -/
theorem encodeClampsOutsideTheCalibratedRange : Obligations.EncodeClampsOutsideTheCalibratedRange := by
  unfold Obligations.EncodeClampsOutsideTheCalibratedRange
  intro s v hvalid
  rw [exec_encode_of_calValid hvalid]
  constructor
  · intro hlow
    have hzero : calCoefficient s.regs v = 0 := encoded_of_le_low hvalid hlow
    rw [hzero]
    rfl
  · intro hhigh
    have hmax : calCoefficient s.regs v = 255 := encoded_of_high_le hvalid hhigh
    rw [hmax]
    rfl

/-- Settles O10: inside the range the coefficient is the floor quotient itself (`encoded_locates`). -/
theorem encodeLocatesAnInRangeSample : Obligations.EncodeLocatesAnInRangeSample := by
  unfold Obligations.EncodeLocatesAnInRangeSample
  intro s v hvalid hlow hhigh
  refine ⟨_, exec_encode_of_calValid hvalid v, ?_⟩
  have hbounds := calCoefficient_bounds hvalid v
  have hword : (bits32 (calCoefficient s.regs v)).toInt = calCoefficient s.regs v := sval_bits32 (by omega)
  rw [hword]
  exact encoded_locates hvalid hlow hhigh

end Sys2Proof.Machine

namespace Sys2Proof.Machine

open Stated

/-! ### The blend at a coefficient (R67, R68, R72)

`rawValue` is the formula of the statements, `coefficient` and `blend` the model's two stages; the properties of R68 are proved of
the stages and carried to `rawValue` by `rawValue_eq`. -/

theorem rawValue_eq (c x0 x1 : Int) : rawValue c x0 x1 = blend (coefficient c) x0 x1 := by
  rw [rawValue, blend, Config.fractionMax, floorDiv_eq_fdiv (by decide), coefficient_eq]

theorem rawValue_bounds (c : Int) {x0 x1 : Int} (h : x0 < x1) : x0 ≤ rawValue c x0 x1 ∧ rawValue c x0 x1 ≤ x1 := by
  rw [rawValue_eq]
  exact blend_bounds (coefficient_bounds c) h

theorem rawValue_mono {c d x0 x1 : Int} (h : x0 < x1) (hcd : c ≤ d) : rawValue c x0 x1 ≤ rawValue d x0 x1 := by
  rw [rawValue_eq, rawValue_eq]
  exact blend_mono (coefficient_mono hcd) h

theorem rawValue_of_nonpos {c : Int} (hc : c ≤ 0) (x0 x1 : Int) : rawValue c x0 x1 = x0 := by
  rw [rawValue_eq, coefficient_of_nonpos hc]
  simp [blend, floorDiv]

theorem rawValue_of_ge {c : Int} (hc : 255 ≤ c) (x0 x1 : Int) : rawValue c x0 x1 = x1 := by
  rw [rawValue_eq, coefficient_of_ge hc]
  simp [blend, floorDiv, Config.fractionMax]

/-- At a coefficient the blend is the floor of the exact value (R67), multiplied out. -/
theorem rawValue_locates {c : Int} (hc : 0 ≤ c ∧ c ≤ 255) (x0 x1 : Int) :
    255 * (rawValue c x0 x1 - x0) ≤ (x1 - x0) * c ∧ (x1 - x0) * c < 255 * (rawValue c x0 x1 - x0 + 1) := by
  obtain ⟨hle, hlt⟩ := floorDiv_spec (n := (x1 - x0) * c) (d := 255) (by decide)
  rw [rawValue_eq, coefficient_of_mem hc, blend, Config.fractionMax]
  constructor <;> omega

/-- Below the coefficient 255 the product stays under `255 * (x1 - x0)`, so the floor does not reach the high endpoint. -/
theorem rawValue_lt_high {c x0 x1 : Int} (h : x0 < x1) (hc : c < 255) : rawValue c x0 x1 < x1 := by
  have hle : rawValue c x0 x1 ≤ rawValue 254 x0 x1 := rawValue_mono h (by omega)
  have hlocates := (rawValue_locates (c := 254) (by decide) x0 x1).1
  omega

/-! ### The correction (R69, R70) -/

theorem correctedValue_eq (raw : Int) : correctedValue raw = correctedExact raw := by
  rw [correctedValue, correctedExact_eq, Int.fdiv_eq_ediv_of_nonneg _ (by decide)]

/-- The thresholds of R70: 2139127680 is the last blend whose correction fits 32 bits, on either side of 0. -/
theorem correctionOverflows_iff_raw (raw : Int) :
    correctionOverflows raw = true ↔ 2139127680 < raw ∨ raw < -2139127680 := by
  rw [correctionOverflows_iff, correctedExact_eq]
  omega

/-- The order of a blend and its exact correction (R76 (c)): the bias has the sign of the blend, and vanishes from 0 to 255. -/
theorem correctedExact_of_nonneg {raw : Int} (h : 0 ≤ raw) :
    raw ≤ correctedExact raw ∧ (correctedExact raw = raw ↔ raw ≤ 255) := by
  rw [correctedExact_eq]
  omega

theorem correctedExact_lt_of_neg {raw : Int} (h : raw < 0) : correctedExact raw < raw := by
  rw [correctedExact_eq]
  omega

/-! ### The response of a blend (R49) -/

/-- The word of the statements in the model's terms. -/
theorem blendWord_eq (c x0 x1 : Int) :
    blendWord c x0 x1 = okWord (correctionOverflows (rawValue c x0 x1)) (bits32 (correctedExact (rawValue c x0 x1)))
      (bits32 (rawValue c x0 x1)) := by
  have hovf : decide (correctedExact (rawValue c x0 x1) < -2147483648 ∨ 2147483647 < correctedExact (rawValue c x0 x1)) =
      correctionOverflows (rawValue c x0 x1) := by
    rw [Bool.eq_iff_iff, correctionOverflows_iff, decide_eq_true_iff]
  rw [blendWord, correctedValue_eq, hovf]

theorem interpResponse_interpCore (c : Int) {x0 x1 : Int} (h : x0 < x1) :
    interpResponse (interpCore c x0 x1) = blendWord c x0 x1 := by
  rw [interpCore_valid h, ← rawValue_eq, blendWord_eq]
  simp only [interpResponse, corrected, bits32_wrap32]

/-- The blend of the expected range of the registers at a coefficient. -/
def expRaw (r : Regs) (c : Int) : Int := rawValue c (sval r.expLow) (sval r.expHigh)

/-- The response of that blend, its correction and its overflow flag. -/
def expWord (r : Regs) (c : Int) : RspWord := blendWord c (sval r.expLow) (sval r.expHigh)

theorem expWord_eq (r : Regs) (c : Int) :
    expWord r c = okWord (correctionOverflows (expRaw r c)) (bits32 (correctedExact (expRaw r c))) (bits32 (expRaw r c)) :=
  blendWord_eq _ _ _

@[simp] theorem rspSt_expWord (r : Regs) (c : Int) : rspSt (expWord r c) = 0b00#2 := by
  rw [expWord_eq, okWord, rspSt_rspWord]
  rfl

@[simp] theorem rspOvf_expWord (r : Regs) (c : Int) : rspOvf (expWord r c) = correctionOverflows (expRaw r c) := by
  rw [expWord_eq, okWord, rspOvf_rspWord]

@[simp] theorem rspD1_expWord (r : Regs) (c : Int) : rspD1 (expWord r c) = bits32 (correctedExact (expRaw r c)) := by
  rw [expWord_eq, okWord, rspD1_rspWord]

@[simp] theorem rspD0_expWord (r : Regs) (c : Int) : rspD0 (expWord r c) = bits32 (expRaw r c) := by
  rw [expWord_eq, okWord, rspD0_rspWord]

/-- `D0` is the blend unwrapped: it lies between two register values. -/
theorem toInt_rspD0_expWord {r : Regs} (h : ExpValid r) (c : Int) : (rspD0 (expWord r c)).toInt = expRaw r c := by
  have hraw : sval r.expLow ≤ expRaw r c ∧ expRaw r c ≤ sval r.expHigh := rawValue_bounds c h
  rw [rspD0_expWord]
  exact sval_bits32 ⟨(sval_bounds r.expLow).1.trans hraw.1, hraw.2.trans (sval_bounds r.expHigh).2⟩

/-- With `OVF` 0, `D1` is the exact correction. -/
theorem toInt_rspD1_expWord {r : Regs} {c : Int} (h : rspOvf (expWord r c) = false) :
    (rspD1 (expWord r c)).toInt = correctedExact (expRaw r c) := by
  rw [rspOvf_expWord, correctionOverflows, Bool.not_eq_false'] at h
  rw [rspD1_expWord]
  exact wrap32_of_fits h

theorem rspD0_expWord_of_nonpos {c : Int} (hc : c ≤ 0) (r : Regs) : rspD0 (expWord r c) = r.expLow := by
  rw [rspD0_expWord, expRaw, rawValue_of_nonpos hc, bits32_sval]

theorem rspD0_expWord_of_ge {c : Int} (hc : 255 ≤ c) (r : Regs) : rspD0 (expWord r c) = r.expHigh := by
  rw [rspD0_expWord, expRaw, rawValue_of_ge hc, bits32_sval]

/-- R76 (a) on the response: `D0` rises with the coefficient, and `D1` too while neither correction overflows. -/
theorem expWord_mono {r : Regs} (h : ExpValid r) {c d : Int} (hcd : c ≤ d) :
    (rspD0 (expWord r c)).toInt ≤ (rspD0 (expWord r d)).toInt ∧
    (rspOvf (expWord r c) = false → rspOvf (expWord r d) = false →
      (rspD1 (expWord r c)).toInt ≤ (rspD1 (expWord r d)).toInt) := by
  have hraw : expRaw r c ≤ expRaw r d := rawValue_mono h hcd
  constructor
  · rwa [toInt_rspD0_expWord h, toInt_rspD0_expWord h]
  · intro hc hd
    rw [toInt_rspD1_expWord hc, toInt_rspD1_expWord hd]
    exact correctedExact_mono hraw

/-! ### INTERP and MAP (R74, R75) -/

theorem exec_interp_of_expValid {s : State} (h : ExpValid s.regs) (c : Word) :
    exec (.interp c) s = .next (answer (expWord s.regs (sval c)) s) := by
  have hresponse : responseOf (.interp c) s.regs = expWord s.regs (sval c) := interpResponse_interpCore _ h
  rw [exec_eq, hresponse]
  rfl

/-- MAP blends at the coefficient that ENCODE finds. -/
theorem exec_map_of_valid {s : State} (hcal : CalValid s.regs) (hexp : ExpValid s.regs) (v : Word) :
    exec (.map v) s = .next (answer (expWord s.regs (calCoefficient s.regs v)) s) := by
  have hencode := encodeCore_valid (s := sval v) hcal
  rw [← encoded_eq _ hcal] at hencode
  have hresponse : responseOf (.map v) s.regs = expWord s.regs (calCoefficient s.regs v) :=
    (congrArg interpResponse (mapCore_of_ok hencode)).trans (interpResponse_interpCore _ hexp)
  rw [exec_eq, hresponse]
  rfl

theorem exec_of_raisesDomainError {s : State} {i : Instr} (h : RaisesDomainError s.regs i) :
    exec i s = .next (answer (faultWord .domainError) s) := by
  obtain ⟨hresponse, hregs⟩ := h
  rw [exec_eq, hresponse, hregs, setRegs_self]

/-- Case (d) of R50 for all three of its operation codes. -/
theorem rejected_word_operand {op : BitVec 4} (hop : op ∈ [0x4#4, 0x5#4, 0x6#4]) {i : RegIndex} (v : Word) (h : i ≠ 0#4) :
    Rejected (word op i v) := by
  rw [rejected_word_iff, rejected_iff_fields]
  exact .inr (.inr (.inr (.inl ⟨hop, h⟩)))

/-- Different response words lead to different next states. -/
theorem answer_inj {w w' : RspWord} {s : State} (h : answer w s = answer w' s) : w = w' := by
  have hresponses : s.responses ++ [w] = s.responses ++ [w'] := congrArg State.responses h
  simpa using hresponses

theorem okWord_ne_faultWord (ovf : Bool) (d1 d0 : Word) (k : FaultKind) : okWord ovf d1 d0 ≠ faultWord k := by
  intro h
  have hstatus : Status.ok.code = k.status.code := by simpa [okWord, faultWord] using congrArg rspSt h
  cases k <;> exact absurd hstatus (by decide)

/-- ENCODE answers OK only with a valid calibrated range, and its `D0` is then the coefficient. -/
theorem calValid_of_exec_encode {s : State} {v a : Word}
    (h : exec (.encode v) s = .next (answer (okWord false 0#32 a) s)) :
    CalValid s.regs ∧ sval a = calCoefficient s.regs v := by
  by_cases hcal : CalValid s.regs
  · rw [exec_encode_of_calValid hcal] at h
    have hword := congrArg rspD0 (answer_inj (Host.Outcome.next.inj h))
    rw [okWord, okWord, rspD0_rspWord, rspD0_rspWord] at hword
    have hbounds := calCoefficient_bounds hcal v
    exact ⟨hcal, by rw [← hword, sval_bits32 (by omega)]⟩
  · rw [exec_encode_of_calDegenerate hcal] at h
    exact absurd (answer_inj (Host.Outcome.next.inj h)).symm (okWord_ne_faultWord _ _ _ _)

/-! ### The residual error of MAP (R76 (d)) -/

/-- Two floors in a row, each located between neighbours: `a` of `255 * p / den`, then `q` of `span * a / 255`. Together they
never exceed `p * span / den` and lose less than `span / 255 + 1`. -/
theorem residual_of_two_floors {p den span a q : Int} (hden : 0 < den) (hspan : 0 < span)
    (ha : a * den ≤ 255 * p ∧ 255 * p < (a + 1) * den) (hq : 255 * q ≤ span * a ∧ span * a < 255 * (q + 1)) :
    q * den ≤ p * span ∧ 255 * (p * span - q * den) < (span + 255) * den := by
  obtain ⟨hale, halt⟩ := ha
  obtain ⟨hqle, hqlt⟩ := hq
  have hupper : 255 * (q * den) ≤ 255 * (p * span) := by
    calc 255 * (q * den) = 255 * q * den := by ring
      _ ≤ span * a * den := mul_le_mul_of_nonneg_right hqle hden.le
      _ = span * (a * den) := by ring
      _ ≤ span * (255 * p) := mul_le_mul_of_nonneg_left hale hspan.le
      _ = 255 * (p * span) := by ring
  have hlower : 255 * (p * span) < 255 * (q * den) + (span + 255) * den := by
    calc 255 * (p * span) = span * (255 * p) := by ring
      _ < span * ((a + 1) * den) := mul_lt_mul_of_pos_left halt hspan
      _ = span * a * den + span * den := by ring
      _ < 255 * (q + 1) * den + span * den := by gcongr
      _ = 255 * (q * den) + (span + 255) * den := by ring
  constructor <;> omega

theorem expRaw_calCoefficient_residual {r : Regs} (hcal : CalValid r) (hexp : ExpValid r) {v : Word}
    (hlow : sval r.calLow ≤ sval v) (hhigh : sval v ≤ sval r.calHigh) :
    (expRaw r (calCoefficient r v) - sval r.expLow) * (sval r.calHigh - sval r.calLow) ≤
      (sval v - sval r.calLow) * (sval r.expHigh - sval r.expLow) ∧
    255 * ((sval v - sval r.calLow) * (sval r.expHigh - sval r.expLow) -
        (expRaw r (calCoefficient r v) - sval r.expLow) * (sval r.calHigh - sval r.calLow)) <
      ((sval r.expHigh - sval r.expLow) + 255) * (sval r.calHigh - sval r.calLow) :=
  residual_of_two_floors (sub_pos.2 hcal) (sub_pos.2 hexp) (encoded_locates hcal hlow hhigh)
    (rawValue_locates (calCoefficient_bounds hcal v) _ _)

/-! ### The statements of the family 42_interpolator.md -/

/-- Settles O11: the expected range is valid or degenerate, one lemma on `exec` for each; the word is that of a well-formed
command, and a nonzero `REG` is case (d) of R50. -/
theorem interpAnswersBlendAndCorrection : Obligations.InterpAnswersBlendAndCorrection := by
  unfold Obligations.InterpAnswersBlendAndCorrection
  refine ⟨fun s c hvalid => ?valid, fun s c hdegenerate => ?degenerate, fun c => ?decoded, fun i c => ?rejected⟩
  case valid => exact exec_interp_of_expValid hvalid c
  case degenerate => exact exec_of_raisesDomainError (interp_raises_of_expDegenerate (not_lt.2 hdegenerate) c)
  case decoded => exact decode_encode (i := .interp c) rfl
  case rejected => exact rejected_word_operand (by decide) c

/-- Settles O12: `D0` is the blend itself, whose bounds and endpoints are those of `rawValue`. -/
theorem interpRawStaysInTheExpectedRange : Obligations.InterpRawStaysInTheExpectedRange := by
  unfold Obligations.InterpRawStaysInTheExpectedRange
  intro s c hvalid
  have hraw := toInt_rspD0_expWord hvalid (sval c)
  obtain ⟨hlow, hhigh⟩ := rawValue_bounds (sval c) hvalid
  refine ⟨_, exec_interp_of_expValid hvalid c, hlow.trans_eq hraw.symm, hraw.trans_le hhigh, ?_, ?_, ?_⟩
  · exact fun hc => rspD0_expWord_of_nonpos hc s.regs
  · exact fun hc => rspD0_expWord_of_ge hc s.regs
  · exact fun hc => hraw.trans_lt (rawValue_lt_high hvalid hc)

/-- Settles O13: the response is monotone in the coefficient (`expWord_mono`). -/
theorem interpIsMonotoneInTheCoefficient : Obligations.InterpIsMonotoneInTheCoefficient := by
  unfold Obligations.InterpIsMonotoneInTheCoefficient
  intro s c d hvalid hcd
  exact ⟨_, _, exec_interp_of_expValid hvalid c, exec_interp_of_expValid hvalid d, expWord_mono hvalid hcd⟩

/-- Settles O14: `D0` is the blend itself, and its correction overflows exactly beyond the thresholds
(`correctionOverflows_iff_raw`). -/
theorem overflowFlagThresholds : Obligations.OverflowFlagThresholds := by
  unfold Obligations.OverflowFlagThresholds
  intro s c hvalid
  have hraw := toInt_rspD0_expWord hvalid (sval c)
  refine ⟨_, exec_interp_of_expValid hvalid c, rspSt_expWord _ _, hraw, ?corrected, ?overflow⟩
  case corrected => rw [hraw, correctedValue_eq, rspD1_expWord]
  case overflow => rw [hraw, rspOvf_expWord, correctionOverflows_iff_raw]

/-- Settles O15: without overflow `D1` is the exact correction of `D0`, which `correctedExact_of_nonneg` and
`correctedExact_lt_of_neg` order. -/
theorem correctionIsOrderedByTheSignOfRaw : Obligations.CorrectionIsOrderedByTheSignOfRaw := by
  unfold Obligations.CorrectionIsOrderedByTheSignOfRaw
  intro s c hvalid
  refine ⟨_, exec_interp_of_expValid hvalid c, fun hovf => ?_⟩
  rw [toInt_rspD0_expWord hvalid, toInt_rspD1_expWord hovf]
  exact ⟨correctedExact_of_nonneg, correctedExact_lt_of_neg⟩

/-- Settles O16: MAP blends at the encoder's coefficient when both ranges are valid, and faults on either one alone; the word is
that of a well-formed command, and a nonzero `REG` is case (d) of R50. -/
theorem mapEncodesThenBlends : Obligations.MapEncodesThenBlends := by
  unfold Obligations.MapEncodesThenBlends
  refine ⟨fun s v hcal hexp => ?valid, fun s v hdegenerate => ?degenerate, fun v => ?decoded, fun i v => ?rejected⟩
  case valid => exact exec_map_of_valid hcal hexp v
  case degenerate =>
    apply exec_of_raisesDomainError
    rcases hdegenerate with hcal | hexp
    · exact map_raises_of_calDegenerate (not_lt.2 hcal) v
    · exact map_raises_of_expDegenerate (not_lt.2 hexp) v
  case decoded => exact decode_encode (i := .map v) rfl
  case rejected => exact rejected_word_operand (by decide) v

/-- Settles O17: an OK from ENCODE gives the valid calibrated range and the coefficient (`calValid_of_exec_encode`) at which both
commands blend. -/
theorem mapAnswersAsInterpOfEncode : Obligations.MapAnswersAsInterpOfEncode := by
  unfold Obligations.MapAnswersAsInterpOfEncode
  intro s v a hexp hencode
  obtain ⟨hcal, hcoefficient⟩ := calValid_of_exec_encode hencode
  rw [exec_map_of_valid hcal hexp, exec_interp_of_expValid hexp, hcoefficient]

/-- Settles O18: the coefficient is monotone in the sample and the response in the coefficient; outside the calibrated range the
coefficient is 0 or 255, where the blend is an endpoint. -/
theorem mapIsMonotoneWithExactEndpoints : Obligations.MapIsMonotoneWithExactEndpoints := by
  unfold Obligations.MapIsMonotoneWithExactEndpoints
  intro s v w hcal hexp hvw
  have hcoefficient : calCoefficient s.regs v ≤ calCoefficient s.regs w := encoded_mono hcal hvw
  obtain ⟨hraw, hcorrected⟩ := expWord_mono hexp hcoefficient
  refine ⟨_, _, exec_map_of_valid hcal hexp v, exec_map_of_valid hcal hexp w, hraw, hcorrected, ?low, ?high⟩
  case low => exact fun hlow => rspD0_expWord_of_nonpos (encoded_of_le_low hcal hlow).le s.regs
  case high => exact fun hhigh => rspD0_expWord_of_ge (encoded_of_high_le hcal hhigh).ge s.regs

/-- Settles O19: `D0` is the blend at the sample's coefficient, two floors in a row (`residual_of_two_floors`). -/
theorem mapResidualErrorIsBounded : Obligations.MapResidualErrorIsBounded := by
  unfold Obligations.MapResidualErrorIsBounded
  intro s v hcal hexp hlow hhigh
  refine ⟨_, exec_map_of_valid hcal hexp v, ?_⟩
  rw [toInt_rspD0_expWord hexp]
  exact expRaw_calCoefficient_residual hcal hexp hlow hhigh

end Sys2Proof.Machine

namespace Sys2Proof.Machine

open Stated

/-! ### One read of the lane (R77 to R80)

PEEK and POP answer the blend of `interp_core` at the whole signed accumulator; POP alone advances the accumulator. -/

/-- The response of a lane read: the blend of the expected range at the accumulator. -/
def laneWord (r : Regs) : RspWord := expWord r (sval r.accum)

theorem interpResponse_laneValue {r : Regs} (h : ExpValid r) : interpResponse (laneValue r) = laneWord r :=
  interpResponse_interpCore _ h

theorem exec_peek_of_expValid {s : State} (h : ExpValid s.regs) : exec .peek s = .next (answer (laneWord s.regs) s) := by
  have hresponse : responseOf .peek s.regs = laneWord s.regs := interpResponse_laneValue h
  rw [exec_eq, hresponse]
  rfl

theorem exec_pop_of_expValid {s : State} (h : ExpValid s.regs) :
    exec .pop s = .next (answer (laneWord s.regs) (setRegs (advanceAccum s.regs) s)) := by
  have hresponse : responseOf .pop s.regs = laneWord s.regs := interpResponse_laneValue h
  rw [exec_eq, hresponse, regsAfter_pop h]

/-- The advance of R80 is the write of the words' sum to `ACCUM`. -/
theorem writeReg_accum_add_step (r : Regs) : writeReg r 4#4 (r.accum + r.step) = some (advanceAccum r) := by
  rw [← advanceAccum_accum]
  rfl

/-! ### The words of PEEK and POP -/

theorem decode_peekWord : decode 0x8000000000#40 = .ok .peek := decode_encode (i := .peek) rfl

theorem decode_popWord : decode 0x9000000000#40 = .ok .pop := decode_encode (i := .pop) rfl

/-- Case (e) of R50 for both of its operation codes. -/
theorem rejected_word_lane {op : BitVec 4} (hop : op ∈ [0x8#4, 0x9#4]) {i : RegIndex} {d : Word}
    (h : i ≠ 0#4 ∨ d ≠ 0#32) : Rejected (word op i d) := by
  rw [rejected_word_iff, rejected_iff_fields]
  exact .inr (.inr (.inr (.inr ⟨hop, h⟩)))

/-! ### Many reads of the lane (R81)

The registers after `j` advances are written in closed form, `ACCUM + j * STEP` wrapped once; that wrapping at every advance
gives the same result is `sweepAccum_sweepAccum`. -/

/-- The registers with `ACCUM` moved by `j` times `STEP`. -/
def sweepAccum (r : Regs) (j : Int) : Regs := { r with accum := bits32 (sval r.accum + j * sval r.step) }

theorem sweepAccum_zero (r : Regs) : sweepAccum r 0 = r := by
  simp [sweepAccum]

theorem advanceAccum_eq_sweepAccum (r : Regs) : advanceAccum r = sweepAccum r 1 := by
  rw [advanceAccum, sweepAccum, bits32_wrap32, one_mul]

/-- The wrap is a homomorphism, so wrapping between two moves does not show. -/
theorem sweepAccum_sweepAccum (r : Regs) (i j : Int) : sweepAccum (sweepAccum r i) j = sweepAccum r (i + j) := by
  have haccum : bits32 (sval (bits32 (sval r.accum + i * sval r.step)) + j * sval r.step) =
      bits32 (sval r.accum + (i + j) * sval r.step) := by
    rw [bits32, BitVec.ofInt_add, BitVec.ofInt_toInt, ← BitVec.ofInt_add, add_mul, add_assoc]
  simp only [sweepAccum, haccum]

/-- A run that begins with a POP goes on from the advanced registers. -/
theorem run_succ_of_pop {s : State} {rest : List HostMove} (h : ExpValid s.regs)
    (hs : s.script = .command 0x9000000000#40 :: rest) (n : Nat) :
    Host.Core.run Sys2Proof.core (n + 1) s =
      Host.Core.run Sys2Proof.core n
        (State.mk (advanceAccum s.regs) rest (s.responses ++ [laneWord s.regs])) :=
  run_succ_of_command hs decode_popWord (exec_pop_of_expValid h) n

/-- `n` POPs in a row: each blends where the ones before it left `ACCUM`; the expected range, which none of them writes, stays
valid throughout. -/
theorem run_pops (n : Nat) (rest : List HostMove) : ∀ s : State, ExpValid s.regs →
    s.script = List.replicate n (.command 0x9000000000#40) ++ rest →
    Host.Core.run Sys2Proof.core n s = .next
      { regs := sweepAccum s.regs n
        script := rest
        responses := s.responses ++ (List.range n).map fun j : Nat => laneWord (sweepAccum s.regs j) } := by
  induction n with
  | zero =>
    intro s _ hscript
    have hrest : s.script = rest := hscript
    rw [run_zero, Int.natCast_zero, sweepAccum_zero, ← hrest]
    simp
  | succ n ih =>
    intro s hvalid hscript
    have hlater (j : Nat) : sweepAccum (advanceAccum s.regs) j = sweepAccum s.regs (j + 1 : Nat) := by
      rw [advanceAccum_eq_sweepAccum, sweepAccum_sweepAccum, Nat.cast_succ, add_comm]
    rw [run_succ_of_pop hvalid hscript]
    refine (ih ⟨advanceAccum s.regs, _, _⟩ hvalid rfl).trans ?_
    simp [hlater, List.range_succ_eq_map, sweepAccum_zero, Function.comp_def]

/-! ### The statements of the family 43_accumulator.md -/

/-- Settles O20: the expected range is valid or degenerate, one lemma on `exec` for each; a nonzero `REG` or `DATA` is case (e) of
R50. -/
theorem peekAnswersTheLaneValue : Obligations.PeekAnswersTheLaneValue := by
  unfold Obligations.PeekAnswersTheLaneValue
  refine ⟨fun s hvalid => ?valid, fun s hdegenerate => ?degenerate, decode_peekWord, fun i d => ?rejected⟩
  case valid => exact exec_peek_of_expValid hvalid
  case degenerate => exact exec_of_raisesDomainError (peek_raises_of_expDegenerate (not_lt.2 hdegenerate))
  case rejected => exact rejected_word_lane (by decide)

/-- Settles O21: a POP with a valid range answers from the registers it finds and leaves the advanced ones, whose sum is wrapped
once (`bits32_wrap32`); one that faults advances nothing. -/
theorem popAnswersTheLaneValueThenAdvances : Obligations.PopAnswersTheLaneValueThenAdvances := by
  unfold Obligations.PopAnswersTheLaneValueThenAdvances
  refine ⟨fun s hvalid => ?valid, fun s hdegenerate => ?degenerate, decode_popWord, fun i d => ?rejected⟩
  case valid =>
    rw [exec_pop_of_expValid hvalid, advanceAccum, bits32_wrap32]
    rfl
  case degenerate => exact exec_of_raisesDomainError (pop_raises_of_expDegenerate (not_lt.2 hdegenerate))
  case rejected => exact rejected_word_lane (by decide)

/-- Settles O22: all three reads blend at the accumulator (`laneWord`), and the WR after PEEK makes POP's advance
(`writeReg_accum_add_step`). -/
theorem laneReadsAgreeWithInterp : Obligations.LaneReadsAgreeWithInterp := by
  unfold Obligations.LaneReadsAgreeWithInterp
  intro s hvalid
  have hpeek := exec_peek_of_expValid hvalid
  have hwrite := exec_wr_of_writeReg (s := answer (laneWord s.regs) s) (by decide) (writeReg_accum_add_step s.regs)
  refine ⟨?interp, laneWord s.regs, _, _, hpeek, exec_pop_of_expValid hvalid, rfl, hwrite, ?regs⟩
  case interp => exact hpeek.trans (exec_interp_of_expValid hvalid s.regs.accum).symm
  case regs => simp only [answer_regs, setRegs_regs]

/-- Settles O23: `run_pops` at the state with the POPs as its next moves. -/
theorem runOfPopsSweepsTheAccumulator : Obligations.RunOfPopsSweepsTheAccumulator := by
  unfold Obligations.RunOfPopsSweepsTheAccumulator
  intro n s rest hvalid
  exact run_pops n rest { s with script := List.replicate n (.command 0x9000000000#40) ++ rest } hvalid rfl

end Sys2Proof.Machine

namespace Sys2Proof.Machine

/-! ### Fault words (R47, R89)

A response that is not OK is one of the two fault words, and a command that answers a fault word leaves the registers alone. -/

@[simp] theorem rspOvf_faultWord (k : FaultKind) : rspOvf (faultWord k) = false := rspOvf_rspWord ..
@[simp] theorem rspD1_faultWord (k : FaultKind) : rspD1 (faultWord k) = 0#32 := rspD1_rspWord ..
@[simp] theorem rspD0_faultWord (k : FaultKind) : rspD0 (faultWord k) = 0#32 := rspD0_rspWord ..

theorem faultWord_injective : Function.Injective faultWord := by
  intro k k'
  cases k <;> cases k' <;> decide

theorem eq_faultWord_of_legalResponse {w : RspWord} (h : legalResponse w = true) (hstatus : rspSt w ≠ 0b00#2) :
    ∃ k, w = faultWord k := by
  simp only [legalResponse, responseOk, Bool.or_eq_true, Bool.and_eq_true, beq_iff_eq] at h
  rcases h with (hdomain | hillegal) | ⟨hok, -⟩
  · exact ⟨_, hdomain⟩
  · exact ⟨_, hillegal⟩
  · exact absurd hok hstatus

/-- A WR that faults had no register to write; a POP that faults found no lane value and does not advance (R80); the other
commands write no register at all. -/
theorem regsAfter_of_faultWord {i : Instr} {r : Regs} {k : FaultKind} (h : responseOf i r = faultWord k) :
    regsAfter i r = r := by
  cases i with
  | wr reg v =>
    rcases Nat.lt_or_ge 5 reg.toNat with hreserved | hnamed
    · rw [regsAfter, writeReg_reserved r v hreserved, Option.getD_none]
    · rw [responseOf_wr_named r v hnamed] at h
      exact absurd h (okWord_ne_faultWord _ _ _ _)
  | pop =>
    simp only [responseOf] at h
    simp only [regsAfter]
    cases hlane : laneValue r with
    | ok v =>
      rw [hlane] at h
      exact absurd h (okWord_ne_faultWord _ _ _ _)
    | error k => rfl
  | rd _ | encode _ | interp _ | map _ | peek => rfl

/-! ### When a command raises DomainError (R84)

The fault is read off the response word alone, and the response off the result of `encode_core` or `interp_core`. -/

/-- Whatever registers a command leaves, the response added to the state is `responseOf`. -/
theorem responseOf_eq_of_exec {i : Instr} {s : State} {w : RspWord} {r : Regs}
    (h : exec i s = .next (answer w (setRegs r s))) : responseOf i s.regs = w := by
  rw [exec_eq] at h
  simpa using congrArg State.responses (Host.Outcome.next.inj h)

theorem exec_eq_domainError_iff (i : Instr) (s : State) :
    exec i s = .next (answer (faultWord .domainError) s) ↔ responseOf i s.regs = faultWord .domainError := by
  constructor
  · intro hexec
    exact responseOf_eq_of_exec (r := s.regs) hexec
  · intro hresponse
    exact exec_of_raisesDomainError ⟨hresponse, regsAfter_of_faultWord hresponse⟩

theorem encodeResponse_eq_faultWord_iff {res : Except FaultKind Int} {k : FaultKind} :
    encodeResponse res = faultWord k ↔ res = .error k := by
  cases res with
  | ok a => simp [encodeResponse, okWord_ne_faultWord]
  | error k' => simp [encodeResponse, faultWord_injective.eq_iff]

theorem interpResponse_eq_faultWord_iff {res : Except FaultKind InterpResult} {k : FaultKind} :
    interpResponse res = faultWord k ↔ res = .error k := by
  cases res with
  | ok v => simp [interpResponse, okWord_ne_faultWord]
  | error k' => simp [interpResponse, faultWord_injective.eq_iff]

theorem encodeCore_eq_domainError_iff {v lo hi : Int} : encodeCore v lo hi = .error .domainError ↔ hi ≤ lo := by
  rcases le_or_gt hi lo with hdegenerate | hvalid
  · simp [encodeCore_degenerate hdegenerate, hdegenerate]
  · simp [encodeCore_valid hvalid, hvalid]

theorem interpCore_eq_domainError_iff {c x0 x1 : Int} : interpCore c x0 x1 = .error .domainError ↔ x1 ≤ x0 := by
  rcases le_or_gt x1 x0 with hdegenerate | hvalid
  · simp [interpCore_degenerate hdegenerate, hdegenerate]
  · simp [interpCore_valid hvalid, hvalid]

/-- The two tests of MAP raise the same fault, so their order (R88) does not show. -/
theorem mapCore_eq_domainError_iff {v cl ch el eh : Int} :
    mapCore v cl ch el eh = .error .domainError ↔ ch ≤ cl ∨ eh ≤ el := by
  rcases le_or_gt ch cl with hdegenerate | hvalid
  · simp [mapCore_of_error (encodeCore_degenerate hdegenerate), hdegenerate]
  · rw [mapCore_of_ok (encodeCore_valid hvalid), interpCore_eq_domainError_iff]
    simp [hvalid]

theorem responseOf_rd_ne_domainError (i : RegIndex) (r : Regs) : responseOf (.rd i) r ≠ faultWord .domainError := by
  simp only [responseOf]
  cases readReg r i with
  | none => exact faultWord_injective.ne (by decide)
  | some v => exact okWord_ne_faultWord _ _ _ _

theorem responseOf_wr_ne_domainError (i : RegIndex) (v : Word) (r : Regs) :
    responseOf (.wr i v) r ≠ faultWord .domainError := by
  simp only [responseOf]
  split
  · exact okWord_ne_faultWord _ _ _ _
  · exact faultWord_injective.ne (by decide)

/-! ### The statements of the family 60_exceptions.md -/

/-- Settles O24: DomainError is read off the response (`exec_eq_domainError_iff`), which reports the fault of the core function
that the command calls; RD and WR call none. -/
theorem domainErrorExactlyOnDegenerateRanges : Obligations.DomainErrorExactlyOnDegenerateRanges := by
  unfold Obligations.DomainErrorExactlyOnDegenerateRanges
  intro s i v
  simp only [ne_eq, exec_eq_domainError_iff]
  refine ⟨?rd, fun r hexec => ?wr, ?encode, ?interp, ?map, ?peek, ?pop⟩
  case rd => exact responseOf_rd_ne_domainError i s.regs
  case wr => exact responseOf_wr_ne_domainError i v s.regs (responseOf_eq_of_exec hexec)
  case encode => exact encodeResponse_eq_faultWord_iff.trans encodeCore_eq_domainError_iff
  case map => exact interpResponse_eq_faultWord_iff.trans mapCore_eq_domainError_iff
  case interp | peek | pop => exact interpResponse_eq_faultWord_iff.trans interpCore_eq_domainError_iff

/-- Settles O25: every response is legal (`legalResponse_responseOf`), so one whose status is not OK is a fault word, after which
`regsAfter_of_faultWord` keeps the registers. -/
theorem faultResponseChangesNoRegister : Obligations.FaultResponseChangesNoRegister := by
  unfold Obligations.FaultResponseChangesNoRegister
  intro i s
  refine ⟨responseOf i s.regs, regsAfter i s.regs, exec_eq i s, fun hstatus => ?_⟩
  obtain ⟨k, hfault⟩ := eq_faultWord_of_legalResponse (legalResponse_responseOf i s.regs) hstatus
  rw [hfault]
  exact ⟨regsAfter_of_faultWord hfault, rspOvf_faultWord k, rspD1_faultWord k, rspD0_faultWord k⟩

end Sys2Proof.Machine

namespace Sys2Proof.Machine

/-! ### Two WRs of different registers (R101)

A register file is what its six indices read, so the two orders need only be compared index by index. -/

theorem regs_ext_of_readReg {r r' : Regs} (h : ∀ k : RegIndex, k.toNat ≤ 5 → readReg r k = readReg r' k) : r = r' := by
  have hcalLow : r.calLow = r'.calLow := Option.some.inj (h 0#4 (by decide))
  have hcalHigh : r.calHigh = r'.calHigh := Option.some.inj (h 1#4 (by decide))
  have hexpLow : r.expLow = r'.expLow := Option.some.inj (h 2#4 (by decide))
  have hexpHigh : r.expHigh = r'.expHigh := Option.some.inj (h 3#4 (by decide))
  have haccum : r.accum = r'.accum := Option.some.inj (h 4#4 (by decide))
  have hstep : r.step = r'.step := Option.some.inj (h 5#4 (by decide))
  cases r
  cases r'
  simp_all only

/-- What index `k` reads after two WRs: the later write is looked at first. -/
theorem readReg_regsAfter_two_writes {r : Regs} {i j k : RegIndex} {old : Word} (a b : Word) (hi : i.toNat ≤ 5)
    (hj : j.toNat ≤ 5) (hold : readReg r k = some old) :
    readReg (regsAfter (.wr j b) (regsAfter (.wr i a) r)) k =
      some (if j = k then b else if i = k then a else old) :=
  readReg_regsAfter_wr b hj (readReg_regsAfter_wr a hi hold)

theorem regsAfter_wr_comm {i j : RegIndex} (r : Regs) (a b : Word) (hi : i.toNat ≤ 5) (hj : j.toNat ≤ 5) (hij : i ≠ j) :
    regsAfter (.wr j b) (regsAfter (.wr i a) r) = regsAfter (.wr i a) (regsAfter (.wr j b) r) := by
  refine regs_ext_of_readReg fun k hk => ?_
  obtain ⟨old, hold⟩ := readReg_named r hk
  rw [readReg_regsAfter_two_writes a b hi hj hold, readReg_regsAfter_two_writes b a hj hi hold]
  by_cases hik : i = k
  · have hjk : j ≠ k := fun hjk => hij (hik.trans hjk.symm)
    simp only [hik, hjk, if_true, if_false]
  · simp only [hik, if_false]

/-! ### Commands that change a register (R19) -/

theorem wr_or_pop_of_regsAfter_ne {i : Instr} {r : Regs} (h : regsAfter i r ≠ r) : (∃ reg v, i = .wr reg v) ∨ i = .pop := by
  cases i with
  | wr reg v => exact .inl ⟨reg, v, rfl⟩
  | pop => exact .inr rfl
  | rd _ | encode _ | interp _ | map _ | peek => exact absurd rfl h

/-! ### Runs of the whole script (R107) -/

/-- One move taken up: its responses, one or none, are those it was due. -/
theorem step_answers_due {s : State} {m : HostMove} {rest : List HostMove} (hscript : s.script = m :: rest) :
    ∃ t, step s = .next t ∧ t.script = rest ∧
      t.responses.length + answersDue rest = s.responses.length + answersDue (m :: rest) := by
  cases m with
  | reset | commandCutByReset => exact ⟨_, step_move hscript, rfl, rfl⟩
  | command w =>
    obtain ⟨rsp, r, -, hrun⟩ := runCommand_answers w (setScript rest s)
    refine ⟨_, (step_move hscript).trans hrun, rfl, ?_⟩
    simp only [answer_responses, setRegs_responses, setScript_responses, List.length_append, List.length_singleton,
      answersDue]
    omega

theorem run_script_completes {s : State} {moves : List HostMove} (hscript : s.script = moves) :
    ∃ t, Host.Core.run Sys2Proof.core moves.length s = .next t ∧ t.script = [] ∧
      t.responses.length = s.responses.length + answersDue moves := by
  induction moves generalizing s with
  | nil => exact ⟨s, run_zero s, hscript, rfl⟩
  | cons m rest ih =>
    obtain ⟨s', hstep, hrest, hdue⟩ := step_answers_due hscript
    obtain ⟨t, hrun, hdone, hcount⟩ := ih hrest
    exact ⟨t, (run_succ_of_next hstep rest.length).trans hrun, hdone, hcount.trans hdue⟩

/-! ### The registers right after reset (R27, R99) -/

theorem readReg_reset {i : RegIndex} (hi : i.toNat ≤ 5) : readReg Regs.reset i = some 0#32 := by
  rcases named_cases hi with rfl | rfl | rfl | rfl | rfl | rfl <;> rfl

/-- Both bounds of the calibrated range are 0 after reset, so it is degenerate. -/
theorem not_calValid_reset : ¬ CalValid Regs.reset := by decide

/-- Both bounds of the expected range are 0 after reset, so it is degenerate. -/
theorem not_expValid_reset : ¬ ExpValid Regs.reset := by decide

/-! ### The statements of the family 70_reset_and_hazards.md -/

/-- Settles O5: both orders answer OK twice and leave the same registers (`regsAfter_wr_comm`), which read as the later write
and, at the other index, as the earlier one. -/
theorem writesToDifferentRegistersCommute : Obligations.WritesToDifferentRegistersCommute := by
  unfold Obligations.WritesToDifferentRegistersCommute
  intro s i j a b rest hi hj hij
  refine ⟨_, run_two_commands rfl (decode_word_wr hi a) (decode_word_wr hj b), ?otherOrder, ?readsA, ?readsB⟩
  case otherOrder =>
    rw [run_two_commands rfl (decode_word_wr hj b) (decode_word_wr hi a)]
    simp only [regsAfter_wr_comm s.regs a b hi hj hij, responseOf_wr_named _ a hi, responseOf_wr_named _ b hj]
  case readsA =>
    obtain ⟨old, hold⟩ := readReg_named s.regs hi
    simpa [hij.symm] using readReg_regsAfter_two_writes a b hi hj hold
  case readsB =>
    obtain ⟨old, hold⟩ := readReg_named s.regs hj
    simpa using readReg_regsAfter_two_writes a b hi hj hold

/-- Settles O41: of what a step can do (`step_cases`), waiting and answering an illegal word keep the registers, and a command
that changes them is WR or POP (`wr_or_pop_of_regsAfter_ne`). -/
theorem registersChangeOnlyByWrPopOrReset : Obligations.RegistersChangeOnlyByWrPopOrReset := by
  unfold Obligations.RegistersChangeOnlyByWrPopOrReset
  intro s t hstep hchanged
  rcases step_cases s with ⟨-, hidle⟩ | ⟨m, rest, hscript, hreset, -⟩ | ⟨w, i, rest, hscript, hdecode, hexec⟩ |
    ⟨w, c, rest, -, -, hillegal⟩
  · obtain rfl : s = t := Host.Outcome.next.inj (hidle.symm.trans hstep)
    exact absurd rfl hchanged
  · exact ⟨m, rest, hscript, hreset.imp_right .inl⟩
  · rw [hexec, exec_eq] at hstep
    obtain rfl := Host.Outcome.next.inj hstep
    refine ⟨.command w, rest, hscript, .inr (.inr ?_)⟩
    rcases wr_or_pop_of_regsAfter_ne hchanged with ⟨reg, v, rfl⟩ | rfl
    · exact .inl ⟨w, reg, v, rfl, hdecode⟩
    · exact .inr ⟨w, rfl, hdecode⟩
  · obtain rfl := Host.Outcome.next.inj (hillegal.symm.trans hstep)
    exact absurd rfl hchanged

/-- Settles O46: by induction on the script (`run_script_completes`), each move giving the responses it was due. -/
theorem finiteRunCompletes : Obligations.FiniteRunCompletes := by
  unfold Obligations.FiniteRunCompletes
  exact fun _ => run_script_completes rfl

/-- Settles O37: both moves are `applyReset` on the state with the move taken up. -/
theorem resetMovesZeroTheRegisters : Obligations.ResetMovesZeroTheRegisters := by
  unfold Obligations.ResetMovesZeroTheRegisters
  rintro s m rest hscript (rfl | ⟨w, rfl⟩)
  · exact (step_move hscript).trans (runMove_reset _)
  · exact (step_move hscript).trans (runMove_commandCutByReset w _)

/-- Settles O40: the registers all read 0, so both ranges are degenerate and every command that uses one finds it so. -/
theorem behaviourRightAfterReset : Obligations.BehaviourRightAfterReset := by
  unfold Obligations.BehaviourRightAfterReset
  refine ⟨fun w ⟨_, hc⟩ => runCommand_illegal hc _, fun i v => ?_⟩
  refine ⟨fun hi => ?rd, fun hi => ?wr, ?encode, ?interp, ?map, ?peek, ?pop⟩
  case rd => exact exec_rd_of_readReg (readReg_reset hi)
  case wr =>
    obtain ⟨r, hwrite, hread, -⟩ := writeReg_named Regs.reset v hi
    exact ⟨r, hread, exec_wr_of_writeReg hi hwrite⟩
  case encode => exact exec_of_raisesDomainError (encode_raises_of_calDegenerate not_calValid_reset v)
  case interp => exact exec_of_raisesDomainError (interp_raises_of_expDegenerate not_expValid_reset v)
  case map => exact exec_of_raisesDomainError (map_raises_of_calDegenerate not_calValid_reset v)
  case peek => exact exec_of_raisesDomainError (peek_raises_of_expDegenerate not_expValid_reset)
  case pop => exact exec_of_raisesDomainError (pop_raises_of_expDegenerate not_expValid_reset)

end Sys2Proof.Machine

namespace Sys2Proof.Machine

/-! ### Reserved register indices (R34, log entry 8)

No word decodes to RD or WR of an index above 5. Built all the same, such a command answers a fault word, and a command that
answers a fault word changes nothing. -/

theorem responseOf_rd_reserved (r : Regs) {i : RegIndex} (hi : 5 < i.toNat) :
    responseOf (.rd i) r = faultWord .illegalCommand := by
  rw [responseOf, readReg_reserved r hi, Option.elim_none]

theorem responseOf_wr_reserved (r : Regs) {i : RegIndex} (v : Word) (hi : 5 < i.toNat) :
    responseOf (.wr i v) r = faultWord .illegalCommand :=
  if_neg fun hnamed => absurd ((regNamed_iff i).1 hnamed) (Nat.not_le.2 hi)

/-- A command that answers a fault word does nothing else (R89). -/
theorem exec_of_faultWord {i : Instr} {s : State} {k : FaultKind} (h : responseOf i s.regs = faultWord k) :
    exec i s = .next (answer (faultWord k) s) := by
  rw [exec_eq, h, regsAfter_of_faultWord h, setRegs_self]

/-- Settles O3: RD and WR of a reserved index both answer the IllegalCommand word, and a fault word is all they leave behind
(`exec_of_faultWord`). -/
theorem reservedIndexRaisesIllegalCommand : Obligations.ReservedIndexRaisesIllegalCommand := by
  unfold Obligations.ReservedIndexRaisesIllegalCommand
  intro s i v hi
  exact ⟨exec_of_faultWord (responseOf_rd_reserved s.regs hi), exec_of_faultWord (responseOf_wr_reserved s.regs v hi)⟩

/-! ### The listed words (V14, V15) -/

/-- Settles O33: each listed word is the encoder's word of a well-formed command, which is what the decoder reads back
(`decode_eq_ok_iff`). -/
theorem listedWordsDecodeAsListed : Obligations.ListedWordsDecodeAsListed := by
  unfold Obligations.ListedWordsDecodeAsListed
  refine ⟨?rd, ?wr, ?encode, ?interp, ?map, decode_peekWord, decode_popWord⟩
  case rd | wr | encode | interp | map => exact decode_eq_ok_iff.2 ⟨rfl, by decide⟩

end Sys2Proof.Machine
